-- ==== Sys2Proof/Word.lean ====
section
/-! DEFINITION. The three value types of the CORE: an input byte, a command word, the accumulator. -/

namespace Sys2Proof

/-- An input byte, an unsigned value 0 .. 255 (20_memory.md R43; `BYTE_WIDTH` of 00_scope.md R7). -/
abbrev Byte := BitVec 8

/-- A command word `cmd[9:0]` (30_encoding.md R60; `CMD_WIDTH` of 00_scope.md R8). -/
abbrev CmdWord := BitVec 10

/-- A value of the accumulator `total` and of a result (10_state.md R20; `ACC_WIDTH` of 00_scope.md R7). -/
abbrev Total := BitVec 128

end Sys2Proof
end

