-- ==== Sys2Proof/Syntax.lean ====
section
/-! DEFINITION. The commands: one constructor for each row of the opcode map (30_encoding.md R61, R64). -/

namespace Sys2Proof

/-- What a command word decodes to (30_encoding.md R64). The `data` field of `CLR` and `RD` is ignored (R63), so
those two carry nothing. -/
inductive Instr where
  /-- `CLR`, op 00 (40_initialise.md R80). -/
  | clr
  /-- `ACC b`, op 01 (41_multiply_add.md R85). -/
  | acc (b : Byte)
  /-- `RD`, op 10 (42_result.md R100). -/
  | rd
  /-- A reserved word, op 11, with its data field (30_encoding.md R66). -/
  | reserved (data : Byte)
deriving DecidableEq, Repr

/-- A line of the assembler of 30_encoding.md R69 and R70, its operands read. -/
inductive AsmLine where
  | clr
  | acc (b : Byte)
  | rd
  /-- `.word`, any 10-bit word. -/
  | word (w : CmdWord)
  /-- `accs "<text>"`, the text as its bytes. -/
  | accs (text : List Byte)
  /-- `parse "<text>"`. -/
  | parse (text : List Byte)
  /-- `accn <byte>, <count>`. -/
  | accn (b : Byte) (count : Nat)
deriving DecidableEq, Repr

end Sys2Proof
end

