-- ==== Sys2Proof/WellFormed.lean ====
section
/-! DEFINITION. What makes a command well formed, and a number a command word. -/

namespace Sys2Proof

/-- The 258 commands of 30_encoding.md R64: `CLR`, `ACC 0` to `ACC 255` and `RD`. A reserved word is none of
them: it has no mnemonic and a host must not send it (R66, 70_reset_and_hazards.md R152). -/
def Instr.wellFormed : Instr → Bool
  | .clr => true
  | .acc _ => true
  | .rd => true
  | .reserved _ => false

/-- A number is a command word when it fits the ten bits of `cmd[9:0]` (30_encoding.md R60). -/
def isCmdWord (w : Nat) : Bool := decide (w < 1024)

end Sys2Proof
end

