-- ==== Sys2Proof/Decode.lean ====
section
/-! DEFINITION. The decoder and the encoder of 30_encoding.md, and the reading of a number as a command word. -/

namespace Sys2Proof

/-- The field `op`, `cmd[9:8]` (30_encoding.md R60). -/
def opField (w : CmdWord) : BitVec 2 := w.extractLsb' 8 2

/-- The field `data`, `cmd[7:0]` (30_encoding.md R60, R62). -/
def dataField (w : CmdWord) : Byte := w.extractLsb' 0 8

/-- The decoder of 30_encoding.md R64, total on every 10-bit word. -/
def decode (w : CmdWord) : Instr :=
  if opField w = 0b00#2 then .clr
  else if opField w = 0b01#2 then .acc (dataField w)
  else if opField w = 0b10#2 then .rd
  else .reserved (dataField w)

/-- Why a number has no decoding. -/
inductive DecodeError where
  /-- It needs more than the ten bits of a command word (30_encoding.md R60). -/
  | widerThanTenBits
deriving DecidableEq, Repr

/-- The decoder on any number: the ten bits of a word, or the name of what is wrong. -/
def decodeNat (w : Nat) : Except DecodeError Instr :=
  if isCmdWord w then .ok (decode (BitVec.ofNat 10 w)) else .error .widerThanTenBits

/-- The encoder of 30_encoding.md R64, defined on the 258 commands; a reserved word has no encoding there, only
the assembler's `.word` (R69). -/
def encode : Instr → Option CmdWord
  | .clr => some 0x000#10
  | .acc b => some (0x100#10 + b.setWidth 10)
  | .rd => some 0x200#10
  | .reserved _ => none

/-- The reserved word with this data field, as `.word 0x3NN` writes it (30_encoding.md R66, R69). -/
def reservedWord (data : Byte) : CmdWord := 0x300#10 + data.setWidth 10

/-- The instruction the decoder reads from the number `w` that has `nbits` bits. A command is one 10-bit word on
one port, so there is no byte order; a number with a bit above bit 9, or above its own `nbits`, is no word. -/
def decodeTableWord (nbits w : Nat) : Option Instr :=
  if w < 2 ^ nbits then (decodeNat w).toOption else none

end Sys2Proof
end

