-- ==== Sys2Proof/Config.lean ====
section
/-! DEFINITION. The constants the source fixes (00_scope.md R7), the two the spec decides (R8), and the
parameters and values that stay open: each of those is an opaque constant with no body. -/

namespace Sys2Proof.Config

/-- `RADIX`, the multiplier of the multiply step (00_scope.md R7). -/
def radix : Total := 10#128

/-- `ZERO_CODE`, the constant subtracted from each byte (00_scope.md R7). -/
def zeroCode : Byte := 0x30#8

/-- `INIT_TOTAL`, the value `CLR` writes (00_scope.md R7). -/
def initTotal : Total := 0#128

/-- `RESET_TOTAL`, the value of `total` after reset (00_scope.md R8, decided by D9). -/
def resetTotal : Total := 0#128

/-- What an implementation of the port level fixes (00_scope.md R8, 93_implementation_defined.md U11). A
parameter that is at least 1 is held as its excess over 1, so that every value of the structure is legal. No
value computed at the transaction level depends on any of them. -/
structure Params where
  /-- `PIPE_STAGES` less 1. -/
  pipeStagesMinusOne : Nat
  /-- `RES_DEPTH` less 1. -/
  resDepthMinusOne : Nat
  /-- `CMD_LATENCY_MAX` less 1. -/
  cmdLatencyMaxMinusOne : Nat
  /-- Whether the accumulator stage asks, at this edge, to keep a command of this op for one edge more (R145, last
  sentence). It is given the op and not the data, since the time of an `ACC` does not depend on the data (R146). -/
  stageBusy : Nat → BitVec 2 → Bool
  /-- How many edges the recovery after the reset at this edge asks for (R140). -/
  resetRecovery : Nat → Nat
  /-- What `res` shows at this edge while `res_valid` is 0 (R49, U10). -/
  idleRes : Nat → Total

/-- `PIPE_STAGES`, at least 1 (00_scope.md R8). -/
def Params.pipeStages (p : Params) : Nat := p.pipeStagesMinusOne + 1

/-- `RES_DEPTH`, at least 1 (00_scope.md R8). -/
def Params.resDepth (p : Params) : Nat := p.resDepthMinusOne + 1

/-- `CMD_LATENCY_MAX`, at least 1, the bound of 70_reset_and_hazards.md R146 (00_scope.md R8). -/
def Params.cmdLatencyMax (p : Params) : Nat := p.cmdLatencyMaxMinusOne + 1

/-- The informative organisation of 70_reset_and_hazards.md R145, as used by the port-level trace that ends
95_test_vectors.md: two stages, one waiting result, one edge a command, no recovery. The bound of one edge is the least that this
organisation keeps. -/
def referenceParams : Params :=
  { pipeStagesMinusOne := 1, resDepthMinusOne := 0, cmdLatencyMaxMinusOne := 0, stageBusy := fun _ _ => false,
    resetRecovery := fun _ => 0, idleRes := fun _ => 0#128 }

/-- OPEN parameter `PIPE_STAGES` less 1 (92_eei_decisions.md D20). -/
opaque pipeStagesMinusOne : Nat

/-- OPEN parameter `RES_DEPTH` less 1 (92_eei_decisions.md D25). -/
opaque resDepthMinusOne : Nat

/-- OPEN parameter `CMD_LATENCY_MAX` less 1 (92_eei_decisions.md D21). -/
opaque cmdLatencyMaxMinusOne : Nat

/-- Free value: the edges for which the accumulator stage asks (92_eei_decisions.md D20, D21). -/
opaque stageBusy : Nat → BitVec 2 → Bool

/-- Free value: the edges of the recovery after a reset (R140, 92_eei_decisions.md D8). -/
opaque resetRecovery : Nat → Nat

/-- Free value: `res` while `res_valid` is 0 (92_eei_decisions.md D28). -/
opaque idleRes : Nat → Total

/-- Free value: `total` after power-up and before the first reset (10_state.md R29, U9). -/
opaque powerUpTotal : Total

/-- Free value: the words in flight after power-up, each with the edges left to it (R29, U9). -/
opaque powerUpInFlight : List (CmdWord × Nat)

/-- Free value: the results waiting after power-up (R29, U9). -/
opaque powerUpResults : List Total

/-- The parameters of the machine that `step` runs. -/
def params : Params :=
  { pipeStagesMinusOne := pipeStagesMinusOne, resDepthMinusOne := resDepthMinusOne,
    cmdLatencyMaxMinusOne := cmdLatencyMaxMinusOne, stageBusy := stageBusy, resetRecovery := resetRecovery, idleRes := idleRes }

end Sys2Proof.Config
end

