-- ==== Sys2Proof/Machine/State.lean ====
section
/-! DEFINITION. The state of one instance of the CORE, the reasons a step can stop, and the state after reset. -/

namespace Sys2Proof.Machine

/-- The CORE raises nothing: the table of exception causes is empty (60_exceptions.md R120, R121), so this type
has no constructor and no step can end in a fault. Safe: nothing is hidden behind a fault. -/
inductive Fault where
deriving DecidableEq, Repr

/-- Why a step, or the admission of a command sequence, is refused. -/
inductive Refusal where
  /-- Raised by an arm of `exec` for an instruction that has no meaning yet; no arm does. Safe. -/
  | notModelled (mnemonic : String)
  /-- Raised by `edge` for a command offered before the first reset, which has no defined effect
  (70_reset_and_hazards.md R143, 93_implementation_defined.md U9). Safe. -/
  | commandBeforeReset
  /-- Raised by `checkSequence` (Safety.lean), never by `step`: a command sequence that holds a reserved word, which the spec asks a
  model to refuse (30_encoding.md R66, 93_implementation_defined.md U3). Safe. -/
  | reservedWordInSequence (data : Byte)
deriving DecidableEq, Repr

/-- The input pins of one instance as sampled at one rising edge of `clk` (10_state.md R28). -/
structure PortIn where
  rst : Bool
  cmdValid : Bool
  cmd : CmdWord
  resReady : Bool
deriving DecidableEq, Repr

/-- A command accepted and not yet completed (10_state.md R26): its word, and the model's count of the edges after
the coming one that `CMD_LATENCY_MAX` leaves it (70_reset_and_hazards.md R146). -/
structure InFlight where
  word : CmdWord
  left : Nat
deriving DecidableEq, Repr

/-- The state of one instance. `total` is the one architectural register (10_state.md R20, R30); `inFlight` and
`resWaiting` are the hidden state of the port level (R26). The other fields are the model's own: where the machine
stands since its reset, the two sequences that the rules speak of, and the inputs still to come. -/
structure State where
  /-- The accumulator (10_state.md R20). -/
  total : Total
  /-- The commands accepted and not completed, oldest first (10_state.md R26). -/
  inFlight : List InFlight
  /-- The results produced and not taken, oldest first (10_state.md R26). -/
  resWaiting : List Total
  /-- Whether a reset has happened since power-up (70_reset_and_hazards.md R143). -/
  resetSeen : Bool
  /-- The edges since the last one with `rst` = 1, for the recovery of 70_reset_and_hazards.md R140. -/
  sinceReset : Nat
  /-- The edges so far, the argument of the free values of Config. -/
  edge : Nat
  /-- The words accepted since the last reset, in acceptance order: c_0, c_1, ... of 20_memory.md R45. -/
  accepted : List CmdWord
  /-- The results the host has taken since the last reset, in order (20_memory.md R49). -/
  taken : List Total
  /-- The input pins of the coming edges, the next edge first; the host pauses once they run out. -/
  pins : List PortIn
deriving DecidableEq, Repr

/-- The machine right after reset (10_state.md R29): `total` is `RESET_TOTAL`, nothing is in flight and no result
waits. -/
def State.reset : State :=
  { total := Config.resetTotal, inFlight := [], resWaiting := [], resetSeen := true, sinceReset := 0,
    edge := 0, accepted := [], taken := [], pins := [] }

/-- The machine after power-up and before its first reset: `total` and the hidden state are unspecified
(10_state.md R29, 93_implementation_defined.md U9), so each is a free value. -/
def State.powerUp : State :=
  { total := Config.powerUpTotal,
    inFlight := Config.powerUpInFlight.map fun c => { word := c.1, left := c.2 },
    resWaiting := Config.powerUpResults, resetSeen := false, sinceReset := 0, edge := 0, accepted := [],
    taken := [], pins := [] }

end Sys2Proof.Machine
end

