-- ==== Sys2Proof/Machine/Ops.lean ====
section
/-! DEFINITION. The width-indexed operators of 00_scope.md R10 and the named operations over the state. The CORE
takes no exception and returns from none (60_exceptions.md R120, R124, R125), so no operation stands here for
either; it has no memory (20_memory.md R40), so no operation reads or writes one. -/

namespace Sys2Proof.Machine

/-- `a +_N b`, the low N bits of the exact sum (00_scope.md R10). -/
def addN {n : Nat} (a b : BitVec n) : BitVec n := BitVec.ofNat n (a.toNat + b.toNat)

/-- `a -_N b`, the exact difference modulo 2^N (00_scope.md R10). -/
def subN {n : Nat} (a b : BitVec n) : BitVec n := BitVec.ofInt n ((a.toNat : Int) - (b.toNat : Int))

/-- `a *_N b`, the low N bits of the exact product (00_scope.md R10). -/
def mulN {n : Nat} (a b : BitVec n) : BitVec n := BitVec.ofNat n (a.toNat * b.toNat)

/-- `zext_N(v)`, the N-bit value with the same integer value (00_scope.md R10). -/
def zextN (n : Nat) {m : Nat} (v : BitVec m) : BitVec n := BitVec.ofNat n v.toNat

/-- MUL10, the multiply stage (41_multiply_add.md R86). -/
def mul10 (t : Total) : Total := mulN t Config.radix

/-- ADD, the accumulate stage (41_multiply_add.md R88). -/
def add (p d : Total) : Total := addN p d

/-- The register write `total <- v` (00_scope.md R10). -/
def State.setTotal (s : State) (v : Total) : State := { s with total := v }

/-- The output primitive `emit(v)`: v joins the end of the results that wait (00_scope.md R10, 20_memory.md R49). -/
def State.emit (s : State) (v : Total) : State := { s with resWaiting := s.resWaiting ++ [v] }

/-- The commands in flight replaced (10_state.md R26). -/
def State.setInFlight (s : State) (q : List InFlight) : State := { s with inFlight := q }

/-- One edge less is left to every command (70_reset_and_hazards.md R146). -/
def ageAll (q : List InFlight) : List InFlight := q.map fun c => { c with left := c.left - 1 }

/-- One edge of `clk` without reset has passed. -/
def State.tick (s : State) : State := { s with edge := s.edge + 1, sinceReset := s.sinceReset + 1 }

/-- The pins of the edge that is taken now are used up. -/
def State.dropPins (s : State) : State := { s with pins := s.pins.tail }

end Sys2Proof.Machine
end

