-- ==== Sys2Proof/Machine/Initialise.lean ====
section
/-! DEFINITION. The initialise family: `CLR` (40_initialise.md). -/

namespace Sys2Proof.Machine

/-- `CLR`: `total <- 0`; nothing is emitted and results that wait stay (40_initialise.md R80). -/
def execClr (s : State) : Host.Outcome State Fault Refusal := .next (s.setTotal Config.initTotal)

end Sys2Proof.Machine
end

