-- ==== Sys2Proof/Machine/Operands.lean ====
section
/-! DEFINITION. The one operand form of the CORE: the input byte of `ACC` and the addend made from it. -/

namespace Sys2Proof.Machine

/-- The 8-bit wrapping subtraction of DIGIT, done before any widening (41_multiply_add.md R87, 30_encoding.md
R62). -/
def digit8 (b : Byte) : Byte := subN b Config.zeroCode

/-- DIGIT, the byte-to-digit-value extractor: the 8-bit difference zero-extended to 128 bits
(41_multiply_add.md R87). -/
def digit (b : Byte) : Total := zextN 128 (digit8 b)

/-- The new value of `total` after `ACC b`, `mac(t, b) = add(mul10(t), digit(b))` (41_multiply_add.md R85). -/
def mac (t : Total) (b : Byte) : Total := add (mul10 t) (digit b)

/-- A true digit, a byte in 0x30 .. 0x39 (41_multiply_add.md R92 class 1). -/
def trueDigit (b : Byte) : Bool := decide (0x30 ≤ b.toNat ∧ b.toNat ≤ 0x39)

end Sys2Proof.Machine
end

