-- ==== Sys2Proof/Machine/MultiplyAdd.lean ====
section
/-! DEFINITION. The multiply-add family: `ACC` (41_multiply_add.md). -/

namespace Sys2Proof.Machine

/-- `ACC b`: `total <- mac(total, b)`, written once with the final sum (41_multiply_add.md R85, 10_state.md R21). -/
def execAcc (b : Byte) (s : State) : Host.Outcome State Fault Refusal := .next (s.setTotal (mac s.total b))

end Sys2Proof.Machine
end

