-- ==== Sys2Proof/Machine/Reserved.lean ====
section
/-! DEFINITION. The reserved words (30_encoding.md R66). -/

namespace Sys2Proof.Machine

/-- A reserved word: it is accepted like any other, does not change `total`, emits no result and raises nothing,
whatever its data field (30_encoding.md R66, 70_reset_and_hazards.md R145). DESIGN CHOICE (log entry 2): the
spec asks a model to refuse a sequence that holds such a word; `checkSequence` in Safety.lean is that refusal. -/
def execReserved (_data : Byte) (s : State) : Host.Outcome State Fault Refusal := .next s

end Sys2Proof.Machine
end

