-- ==== Sys2Proof/Machine/Result.lean ====
section
/-! DEFINITION. The result family: `RD` (42_result.md). -/

namespace Sys2Proof.Machine

/-- `RD`: `emit(total)`; `total` is unchanged (42_result.md R100). Whether there is room for the result is the
pipeline's business, before the command executes (20_memory.md R49, Machine/Ports.lean). -/
def execRd (s : State) : Host.Outcome State Fault Refusal := .next (s.emit s.total)

end Sys2Proof.Machine
end

