-- ==== Sys2Proof/Machine/Dispatch.lean ====
section
/-! DEFINITION. One arm for each command: the meaning it calls. -/

namespace Sys2Proof.Machine

def exec (i : Instr) (s : State) : Host.Outcome State Fault Refusal :=
  match i with
  | .clr => Sys2Proof.Machine.execClr s
  | .acc b => Sys2Proof.Machine.execAcc b s
  | .rd => Sys2Proof.Machine.execRd s
  | .reserved data => Sys2Proof.Machine.execReserved data s

end Sys2Proof.Machine
end

