-- ==== Sys2Proof/Machine/Ports.lean ====
section
/-! DEFINITION. The port level: the outputs, the two handshakes, the pipeline and reset, one edge of `clk` at a
time (20_memory.md R48, R49; 70_reset_and_hazards.md R140 to R149). Every function takes the parameters as an
argument (93_implementation_defined.md U11). -/

namespace Sys2Proof.Machine

open Sys2Proof.Config (Params)

/-- The pins of a host that pauses: nothing is offered and nothing is taken (70_reset_and_hazards.md R152). What
stands on `cmd` then has no meaning (30_encoding.md R71). -/
def PortIn.pause : PortIn := { rst := false, cmdValid := false, cmd := 0#10, resReady := false }

/-- The edges the recovery after the last reset takes: what the implementation asks for, within `CMD_LATENCY_MAX`
(70_reset_and_hazards.md R140). -/
def recoveryEdges (p : Params) (s : State) : Nat := min (p.resetRecovery (s.edge - s.sinceReset)) p.cmdLatencyMax

/-- The recovery after the last reset is over (hold H1 of 70_reset_and_hazards.md R149). -/
def recovered (p : Params) (s : State) : Bool := decide (recoveryEdges p s ≤ s.sinceReset)

/-- There is room for one more command already: fewer than `PIPE_STAGES` are in flight (10_state.md R26, hold H2 of
70_reset_and_hazards.md R149). -/
def pipelineHasRoom (p : Params) (s : State) : Bool :=
  match s.inFlight with
  | [] => true
  | _ :: others => decide (others.length < p.pipeStagesMinusOne)

/-- One more command can complete within `CMD_LATENCY_MAX` edges: no more than so many are in flight, one of which
leaves the pipeline at each edge that the result port does not hold (70_reset_and_hazards.md R146; DESIGN CHOICE,
log entry 6). It fails only where commands have piled up behind a stalled `RD`. -/
def latencyHasRoom (p : Params) (s : State) : Bool :=
  match s.inFlight with
  | [] => true
  | _ :: others => decide (others.length ≤ p.cmdLatencyMaxMinusOne)

/-- `RES_DEPTH` results wait, so that no further one can be deposited (20_memory.md R49, hold H3 of
70_reset_and_hazards.md R149). -/
def resultPortFull (p : Params) (s : State) : Bool :=
  match s.resWaiting with
  | [] => false
  | _ :: others => decide (p.resDepthMinusOne ≤ others.length)

/-- Whether the accumulator stage cannot execute this command at this edge: only an `RD`, and only while the
result port is full (20_memory.md R49, 70_reset_and_hazards.md R145). -/
def stalls (p : Params) (i : Instr) (s : State) : Bool :=
  match i with
  | .clr => false
  | .acc _ => false
  | .rd => resultPortFull p s
  | .reserved _ => false

/-- Whether the stage keeps the oldest command for this edge although nothing stalls it: it asks to, the command is
not a reserved word, which holds nothing (30_encoding.md R66, D5), and `CMD_LATENCY_MAX` still leaves it an edge
(70_reset_and_hazards.md R145, R146). -/
def stageHolds (p : Params) (c : InFlight) (s : State) : Bool :=
  match c.left, decode c.word with
  | 0, _ => false
  | _ + 1, .reserved _ => false
  | _ + 1, _ => p.stageBusy s.edge (opField c.word)

/-- The oldest command will complete at this edge whatever the host does. -/
def oldestCompletes (p : Params) (s : State) : Bool :=
  match s.inFlight with
  | [] => false
  | c :: _ => !stageHolds p c s && !stalls p (decode c.word) s

/-- The output `cmd_ready`: the recovery is over, one more command can complete in time, and there is room or the
oldest command makes room at this very edge (DESIGN CHOICE, log entry 8). It depends on `rst` and on the state, never on `cmd_valid` or `cmd`
(20_memory.md R48, 10_state.md R29). -/
def cmdReady (p : Params) (rst : Bool) (s : State) : Bool :=
  !rst && (recovered p s && (latencyHasRoom p s && (pipelineHasRoom p s || oldestCompletes p s)))

/-- The output `res_valid`: a result waits. It does not depend on `res_ready` (20_memory.md R49). -/
def resValid (s : State) : Bool := !s.resWaiting.isEmpty

/-- The output `res`: the oldest result that waits; while none does, a free value (20_memory.md R49, U10). -/
def res (p : Params) (s : State) : Total := s.resWaiting.headD (p.idleRes s.edge)

/-- A command is accepted at this edge (20_memory.md R48). -/
def accepts (p : Params) (pin : PortIn) (s : State) : Bool := pin.cmdValid && cmdReady p pin.rst s

/-- A result is taken at this edge (20_memory.md R49). -/
def takes (pin : PortIn) (s : State) : Bool := !pin.rst && (pin.resReady && resValid s)

/-- The host takes the oldest result when both sides of the handshake are up (20_memory.md R49). -/
def takeResult (pin : PortIn) (s : State) : State :=
  match takes pin s, s.resWaiting with
  | true, v :: rest => { s with resWaiting := rest, taken := s.taken ++ [v] }
  | _, _ => s

/-- The accumulator stage at one edge: it keeps the oldest command, or the command stalls, or it leaves the
pipeline and takes its whole effect (20_memory.md R45, 70_reset_and_hazards.md R144, R145). One edge passes for
every command that stays. -/
def executeOldest (p : Params) (s : State) : Host.Outcome State Fault Refusal :=
  match s.inFlight with
  | [] => .next s
  | c :: rest =>
    if stageHolds p c s || stalls p (decode c.word) s then .next (s.setInFlight (ageAll (c :: rest)))
    else exec (decode c.word) (s.setInFlight (ageAll rest))

/-- The word on `cmd` joins the pipeline: it takes effect exactly as the word it is now (20_memory.md R48, R51). -/
def pushCommand (p : Params) (w : CmdWord) (s : State) : State :=
  { s with inFlight := s.inFlight ++ [{ word := w, left := p.cmdLatencyMaxMinusOne }], accepted := s.accepted ++ [w] }

/-- The command port at one edge; `before` is the state at the start of the edge, where `cmd_ready` is sampled. -/
def acceptCommand (p : Params) (pin : PortIn) (before s : State) : State :=
  if accepts p pin before then pushCommand p pin.cmd s else s

/-- An edge with `rst` = 1: the state of 10_state.md R29 whatever stood before (70_reset_and_hazards.md R140,
60_exceptions.md R123). The coming pins are the host's and the count of edges goes on. -/
def resetEdge (s : State) : State := { State.reset with pins := s.pins, edge := s.edge + 1 }

/-- One rising edge of `clk` with these pins. With `rst` = 1 reset wins over everything; otherwise a result
transfer, the accumulator stage and a command acceptance happen at the same edge (60_exceptions.md R123). Before
the first reset a command offered has no defined effect (70_reset_and_hazards.md R143). -/
def edge (p : Params) (pin : PortIn) (s : State) : Host.Outcome State Fault Refusal :=
  if pin.rst then .next (resetEdge s)
  else if s.resetSeen then
    match executeOldest p (takeResult pin s) with
    | .next t => .next (acceptCommand p pin s t).tick
    | .fault r => .fault r
    | .refused r => .refused r
  else if pin.cmdValid then .refused .commandBeforeReset
  else .next s.tick

/-- The edges of a list of pins, one after another. -/
def edges (p : Params) : List PortIn → State → Host.Outcome State Fault Refusal
  | [], s => .next s
  | pin :: pins, s =>
    match edge p pin s with
    | .next t => edges p pins t
    | .fault r => .fault r
    | .refused r => .refused r

/-- The pins the coming edge samples; the host pauses when it has said nothing more. -/
def nextPins (s : State) : PortIn := s.pins.headD PortIn.pause

/-- The word put where the accumulator stage takes its next command, with no edge left to it and pins that let the
stage run: no reset, nothing offered, and a result that waits is taken. -/
def placeCommand (s : State) (w : CmdWord) : State :=
  { s with resetSeen := true, inFlight := { word := w, left := 0 } :: s.inFlight.tail,
           pins := { PortIn.pause with resReady := true } :: s.pins }

end Sys2Proof.Machine
end

