-- ==== Sys2Proof/Machine/Step.lean ====
section
/-! DEFINITION. One step of the machine: one rising edge of `clk`, with the pins the state holds for it. -/

namespace Sys2Proof.Machine

/-- One rising edge of `clk` (10_state.md R28), with the parameters of Config. -/
def step (s : State) : Host.Outcome State Fault Refusal := edge Config.params (nextPins s) s.dropPins

/-- The instruction whose bits are `w` put where `step` takes its next command from. The CORE fetches nothing
(10_state.md R23); this stands for the host's having had the command accepted. -/
def State.withFetchWord (s : State) (nbits w : Nat) : State := placeCommand s (BitVec.ofNat 10 (w % 2 ^ nbits))

end Sys2Proof.Machine
end

