-- ==== Sys2Proof/Machine/Assembler.lean ====
section
/-! DEFINITION. The assembler and the disassembler of 30_encoding.md R63, R69 and R70: the expansion of a line to
command words, the reading of a line of text, and the text of a word. Text is a list of characters, and a
character stands for its ASCII code (93_implementation_defined.md K2). -/

namespace Sys2Proof.Machine

/-- The word of `acc b` (30_encoding.md R64, R69). -/
def accWord (b : Byte) : CmdWord := 0x100#10 + b.setWidth 10

/-- The words a line expands to (30_encoding.md R69, R70). -/
def lineWords : AsmLine → List CmdWord
  | .clr => [0x000#10]
  | .acc b => [accWord b]
  | .rd => [0x200#10]
  | .word w => [w]
  | .accs text => text.map accWord
  | .parse text => 0x000#10 :: (text.map accWord ++ [0x200#10])
  | .accn b count => List.replicate count (accWord b)

/-- The commands a line stands for (30_encoding.md R69, R70); `.word` stands for whatever its word decodes to. -/
def lineCommands : AsmLine → List Instr
  | .clr => [.clr]
  | .acc b => [.acc b]
  | .rd => [.rd]
  | .word w => [decode w]
  | .accs text => text.map .acc
  | .parse text => .clr :: (text.map .acc ++ [.rd])
  | .accn b count => List.replicate count (.acc b)

/-- Why a line of text is no line of the assembler. -/
inductive AsmError where
  /-- The line begins with no mnemonic of R69 or R70. -/
  | unknownMnemonic
  /-- A mnemonic that takes an operand is not followed by a space and then the operand. -/
  | missingOperand
  /-- The operand has none of the forms of R69. -/
  | badOperand
  /-- "A value outside 0 .. 255 is an assembler error" (R69). -/
  | byteOutOfRange
  /-- `.word` accepts 0x000 .. 0x3FF (R69). -/
  | wordOutOfRange
  /-- A quoted text does not end, or holds a character it may not hold (R70). -/
  | badText
  /-- Something other than a comment follows the command: there is one command a line (R69). -/
  | trailingText
deriving DecidableEq, Repr

/-- A blank between the parts of a line: a space or a tab (DESIGN CHOICE, log entry 14). -/
def isBlank (c : Char) : Bool := c.toNat == 0x20 || c.toNat == 0x09

/-- The text with its leading blanks dropped. -/
def skipBlanks (cs : List Char) : List Char := cs.dropWhile isBlank

/-- A printable ASCII character (30_encoding.md R69). -/
def isPrintable (c : Char) : Bool := decide (0x20 ≤ c.toNat ∧ c.toNat ≤ 0x7E)

/-- The ASCII code of a character, as a byte. -/
def charByte (c : Char) : Byte := BitVec.ofNat 8 c.toNat

/-- The value of a decimal digit. -/
def decDigit (c : Char) : Option Nat :=
  if 0x30 ≤ c.toNat ∧ c.toNat ≤ 0x39 then some (c.toNat - 0x30) else none

/-- The value of a hexadecimal digit; both cases are read (log entry 14). -/
def hexDigit (c : Char) : Option Nat :=
  if 0x30 ≤ c.toNat ∧ c.toNat ≤ 0x39 then some (c.toNat - 0x30)
  else if 0x41 ≤ c.toNat ∧ c.toNat ≤ 0x46 then some (c.toNat - 0x37)
  else if 0x61 ≤ c.toNat ∧ c.toNat ≤ 0x66 then some (c.toNat - 0x57)
  else none

/-- The digits a text begins with, and the rest of it. -/
def takeDigits (digitOf : Char → Option Nat) : List Char → List Nat × List Char
  | [] => ([], [])
  | c :: cs =>
    match digitOf c with
    | some d => let r := takeDigits digitOf cs; (d :: r.1, r.2)
    | none => ([], c :: cs)

/-- The number a text begins with in this base, and the rest of it; no number without a digit. -/
def takeNumber (base : Nat) (digitOf : Char → Option Nat) (cs : List Char) : Except AsmError (Nat × List Char) :=
  match takeDigits digitOf cs with
  | ([], _) => .error .badOperand
  | (d :: ds, rest) => .ok ((d :: ds).foldl (fun n x => base * n + x) 0, rest)

/-- A number as a byte, if it is one (30_encoding.md R69). -/
def byteInRange (r : Nat × List Char) : Except AsmError (Byte × List Char) :=
  if r.1 < 256 then .ok (BitVec.ofNat 8 r.1, r.2) else .error .byteOutOfRange

/-- The operand `<byte>`: a character in single quotes, a hexadecimal or a decimal number (30_encoding.md R69). A `;`
between the quotes is the character and starts no comment, and a single quote may stand between two others: DESIGN
CHOICE (log entry 14), since R69 says of `;` only that it starts a comment. -/
def takeByte (cs : List Char) : Except AsmError (Byte × List Char) :=
  match cs with
  | '\'' :: c :: '\'' :: rest => if isPrintable c then .ok (charByte c, rest) else .error .badOperand
  | '0' :: 'x' :: rest => (takeNumber 16 hexDigit rest).bind byteInRange
  | _ => (takeNumber 10 decDigit cs).bind byteInRange

/-- The operand of `.word`: a hexadecimal number of ten bits (30_encoding.md R69). -/
def takeWord (cs : List Char) : Except AsmError (CmdWord × List Char) :=
  match cs with
  | '0' :: 'x' :: rest =>
    (takeNumber 16 hexDigit rest).bind fun r =>
      if isCmdWord r.1 then .ok (BitVec.ofNat 10 r.1, r.2) else .error .wordOutOfRange
  | _ => .error .badOperand

/-- The bytes of a quoted text up to its closing quote (code 0x22), and the rest. A backslash (code 0x5C) begins
`\xHH`, the byte of that value (30_encoding.md R70). A `;` inside the text is one of its bytes and starts no comment,
and a backslash begins nothing but `\xHH`: DESIGN CHOICE (log entry 14), since R69 and R70 do not say. -/
def takeTextBytes : List Char → Except AsmError (List Byte × List Char)
  | [] => .error .badText
  | c :: cs =>
    if c.toNat = 0x22 then .ok ([], cs)
    else if c.toNat = 0x5C then
      match cs with
      | 'x' :: h :: l :: rest =>
        match hexDigit h, hexDigit l with
        | some a, some b =>
          (takeTextBytes rest).map fun r => (BitVec.ofNat 8 (16 * a + b) :: r.1, r.2)
        | _, _ => .error .badText
      | _ => .error .badText
    else if isPrintable c then (takeTextBytes cs).map fun r => (charByte c :: r.1, r.2)
    else .error .badText

/-- The operand `"<text>"` (30_encoding.md R70). -/
def takeText (cs : List Char) : Except AsmError (List Byte × List Char) :=
  match cs with
  | [] => .error .badOperand
  | c :: rest => if c.toNat = 0x22 then takeTextBytes rest else .error .badOperand

/-- The operands `<byte>, <count>` of `accn` (30_encoding.md R70). -/
def takeByteAndCount (cs : List Char) : Except AsmError ((Byte × Nat) × List Char) :=
  (takeByte cs).bind fun b =>
    match skipBlanks b.2 with
    | ',' :: rest => (takeNumber 10 decDigit (skipBlanks rest)).map fun n => ((b.1, n.1), n.2)
    | _ => .error .badOperand

/-- Nothing is left of the line but blanks and a comment, which `;` starts (30_encoding.md R69). -/
def isLineEnd (cs : List Char) : Bool :=
  match skipBlanks cs with
  | [] => true
  | c :: _ => c == ';'

/-- A line whose operands are read, if nothing follows them. -/
def finishLine (l : AsmLine) (rest : List Char) : Except AsmError (Option AsmLine) :=
  if isLineEnd rest then .ok (some l) else .error .trailingText

/-- The operand text after a mnemonic, which a blank separates from it. -/
def operandText (cs : List Char) : Except AsmError (List Char) :=
  match cs with
  | [] => .error .missingOperand
  | c :: _ => if isBlank c && !isLineEnd cs then .ok (skipBlanks cs) else .error .missingOperand

/-- A mnemonic with one operand: the operand is read and the line made from it. -/
def lineWith {α : Type} (take : List Char → Except AsmError (α × List Char)) (make : α → AsmLine)
    (cs : List Char) : Except AsmError (Option AsmLine) :=
  (operandText cs).bind fun text => (take text).bind fun r => finishLine (make r.1) r.2

/-- A character of a mnemonic: they are in lower case, and `.word` begins with a full stop (30_encoding.md R69). -/
def isMnemonicChar (c : Char) : Bool := decide (0x61 ≤ c.toNat ∧ c.toNat ≤ 0x7A) || c == '.'

/-- One line of text: a command, or none where the line holds only blanks and a comment (30_encoding.md R69,
R70). -/
def readLine (cs : List Char) : Except AsmError (Option AsmLine) :=
  let text := skipBlanks cs
  let name := text.takeWhile isMnemonicChar
  let rest := text.dropWhile isMnemonicChar
  if isLineEnd text then .ok none
  else if name = ['c', 'l', 'r'] then finishLine .clr rest
  else if name = ['r', 'd'] then finishLine .rd rest
  else if name = ['a', 'c', 'c'] then lineWith takeByte .acc rest
  else if name = ['.', 'w', 'o', 'r', 'd'] then lineWith takeWord .word rest
  else if name = ['a', 'c', 'c', 's'] then lineWith takeText .accs rest
  else if name = ['p', 'a', 'r', 's', 'e'] then lineWith takeText .parse rest
  else if name = ['a', 'c', 'c', 'n'] then lineWith takeByteAndCount (fun r => .accn r.1 r.2) rest
  else .error .unknownMnemonic

/-- The words of a program text, line after line (30_encoding.md R69). -/
def assemble : List (List Char) → Except AsmError (List CmdWord)
  | [] => .ok []
  | line :: lines =>
    (readLine line).bind fun l => (assemble lines).map fun ws => (l.map lineWords).getD [] ++ ws

/-- The hexadecimal digit of a value 0 .. 15, in upper case as the spec writes it (DESIGN CHOICE, log entry 14). -/
def hexChar (n : Nat) : Char := if n < 10 then Char.ofNat (0x30 + n) else Char.ofNat (0x37 + n)

/-- A byte as two hexadecimal digits. -/
def hexByte (b : Byte) : List Char := [hexChar (b.toNat / 16), hexChar (b.toNat % 16)]

/-- The line a disassembler prints for a word: `clr` and `rd` whatever the data field (30_encoding.md R63). What it
prints for an `ACC` and for a reserved word is a DESIGN CHOICE (log entry 14). -/
def disassemble (w : CmdWord) : List Char :=
  match decode w with
  | .clr => ['c', 'l', 'r']
  | .acc b => ['a', 'c', 'c', ' ', '0', 'x'] ++ hexByte b
  | .rd => ['r', 'd']
  | .reserved data => ['.', 'w', 'o', 'r', 'd', ' ', '0', 'x', '3'] ++ hexByte data

end Sys2Proof.Machine
end

