-- ==== Sys2Proof/Machine/Flags.lean ====
section
/-! DEFINITION. The CORE has no flag, condition code or predicate (10_state.md R24): no instruction computes one
and State holds none. What stands here are the three wraps that no flag records, for statements to speak of. -/

namespace Sys2Proof.Machine

/-- The exact product does not fit 128 bits (41_multiply_add.md R86). -/
def mulWraps (t : Total) : Bool := decide (2 ^ 128 ≤ 10 * t.toNat)

/-- The byte subtraction borrows (41_multiply_add.md R87). -/
def subWraps (b : Byte) : Bool := decide (b.toNat < 48)

/-- The exact sum does not fit 128 bits (41_multiply_add.md R88). -/
def addWraps (p d : Total) : Bool := decide (2 ^ 128 ≤ p.toNat + d.toNat)

end Sys2Proof.Machine
end

