-- ==== Sys2Proof/Machine/Transactions.lean ====
section
/-! DEFINITION. The transaction level: the step of a command on the one value `total`, the run of a command
sequence, and the source's function `parse` (43_transactions.md). -/

namespace Sys2Proof.Machine

/-- `step(t, c)` of 43_transactions.md R107: the new state and the result emitted, if any. A reserved word acts as
if it were absent. -/
def commandStep (t : Total) : Instr → Total × Option Total
  | .clr => (Config.initTotal, none)
  | .acc b => (mac t b, none)
  | .rd => (t, some t)
  | .reserved _ => (t, none)

/-- `run(t, c)` of 43_transactions.md R107: the final state and the results in order. -/
def run (t : Total) : List Instr → Total × List Total
  | [] => (t, [])
  | c :: cs =>
    let first := commandStep t c
    let rest := run first.1 cs
    (rest.1, first.2.toList ++ rest.2)

/-- The source's function `parse`, the left fold of `mac` from 0 (43_transactions.md R105). -/
def parse (s : List Byte) : Total := s.foldl mac Config.initTotal

/-- The commands of the parse transaction of a byte string (43_transactions.md R106). -/
def transaction (s : List Byte) : List Instr := .clr :: (s.map Instr.acc ++ [.rd])

/-- The words of the parse transaction (43_transactions.md R106). -/
def transactionWords (s : List Byte) : List CmdWord :=
  0x000#10 :: (s.map (fun b => 0x100#10 + b.setWidth 10) ++ [0x200#10])

end Sys2Proof.Machine
end

