-- ==== Sys2Proof/Safety.lean ====
section
/-! DEFINITION. What counts as an admitted sequence, a host that keeps its duties, a clean start and a finished
run; and the invariants of the port level, in the terms statements use. -/

namespace Sys2Proof.Machine

open Sys2Proof.Config (Params)

/-- The refusal the spec asks of a model: a sequence that holds a reserved word is refused, with the first one's
data field (30_encoding.md R66, 93_implementation_defined.md U3). -/
def checkSequence : List CmdWord → Host.Outcome (List Instr) Fault Refusal
  | [] => .next []
  | w :: ws =>
    match decode w with
    | .reserved data => .refused (.reservedWordInSequence data)
    | i =>
      match checkSequence ws with
      | .next is => .next (i :: is)
      | .fault r => .fault r
      | .refused r => .refused r

/-- The narrowest admitted use: parse transactions one after another, with no other command between them
(43_transactions.md R106). The flag says whether a transaction is open. -/
def framed : Bool → List Instr → Bool
  | opened, [] => !opened
  | false, .clr :: cs => framed true cs
  | true, .acc _ :: cs => framed true cs
  | true, .rd :: cs => framed false cs
  | _, _ :: _ => false

/-- A clean state: a reset has happened, no command is in flight and no result waits (70_reset_and_hazards.md
R154). It is fully described by `total`. -/
def State.clean (s : State) : Bool := s.resetSeen && (s.inFlight.isEmpty && s.resWaiting.isEmpty)

/-- Duty (2) of the host between one edge and the next: an offer that is not accepted stays as it is
(70_reset_and_hazards.md R152, 20_memory.md R48). That an edge with `rst` = 1 at either end excuses the host is a
DESIGN CHOICE (log entry 18): the two rules name no exception for reset, and R152 lets the host assert it at any
time. -/
def offerKept (p : Params) (s : State) (pin next : PortIn) : Bool :=
  pin.rst || next.rst || !pin.cmdValid || cmdReady p pin.rst s || (next.cmdValid && next.cmd == pin.cmd)

/-- Duties (1), (2) and (4) of the host over a list of edges: no command before the first reset, no offer changed
before it is accepted, no reserved word (70_reset_and_hazards.md R152). -/
def hostKeepsDuties (p : Params) : List PortIn → State → Bool
  | [], _ => true
  | pin :: pins, s =>
    (pin.rst || !pin.cmdValid || (decode pin.cmd).wellFormed) &&
    (match pins with
      | [] => true
      | next :: _ => offerKept p s pin next) &&
    (match edge p pin s with
      | .next t => hostKeepsDuties p pins t
      | .fault _ => false
      | .refused _ => false)

/-- The commands of a list of words. -/
def commands (ws : List CmdWord) : List Instr := ws.map decode

/-- What the commands still in flight will do: the run of them from the present `total`. -/
def pendingRun (s : State) : Total × List Total := run s.total (commands (s.inFlight.map (·.word)))

/-- The ordering model of 20_memory.md R45 as a fact of one state: from the start value `t`, the accepted sequence
run in acceptance order gives the `total` that the pipeline will reach and the results taken, waiting and still to
come, in order. -/
abbrev InOrder (t : Total) (s : State) : Prop :=
  run t (commands s.accepted) = ((pendingRun s).1, s.taken ++ s.resWaiting ++ (pendingRun s).2)

/-- The bounds of the hidden state (10_state.md R26): at most `PIPE_STAGES` commands in flight, at most
`RES_DEPTH` results waiting, and no command with more edges left than `CMD_LATENCY_MAX` gives. -/
abbrev Bounded (p : Params) (s : State) : Prop :=
  s.inFlight.length ≤ p.pipeStages ∧ s.resWaiting.length ≤ p.resDepth ∧ ∀ c ∈ s.inFlight, c.left < p.cmdLatencyMax

/-- At most `CMD_LATENCY_MAX` commands are in flight, or an `RD` is the oldest and at most so many are behind it. -/
def backlogHeldByRd (p : Params) (s : State) : Bool :=
  match s.inFlight with
  | [] => true
  | c :: rest => decide (rest.length < p.cmdLatencyMax) ||
      (decide (decode c.word = .rd) && decide (rest.length ≤ p.cmdLatencyMax))

/-- The counts of `CMD_LATENCY_MAX` as every edge leaves them: within the bounds, an older command has fewer edges left
than a younger one or neither has any, and more commands than the bound stand in flight only behind an `RD`
(70_reset_and_hazards.md R146; the counts are the model's, log entry 6). -/
abbrev Paced (p : Params) (s : State) : Prop :=
  Bounded p s ∧ (s.inFlight.map (·.left)).Pairwise (fun a b => a < b ∨ (a = 0 ∧ b = 0)) ∧
  backlogHeldByRd p s = true

/-- Every command in flight can complete within `CMD_LATENCY_MAX` edges from now, if the result port holds none of
them. A result port that holds an `RD` can break this, and R146 leaves that time out of its bound
(70_reset_and_hazards.md R146). -/
abbrev OnTime (p : Params) (s : State) : Prop := Paced p s ∧ s.inFlight.length ≤ p.cmdLatencyMax

/-- The pins of a host that offers the first of the words and takes every result. -/
def offerFirst : List CmdWord → PortIn
  | [] => { PortIn.pause with resReady := true }
  | w :: _ => { rst := false, cmdValid := true, cmd := w, resReady := true }

/-- So many edges with a host that offers the words one after another without pause and takes every result
(70_reset_and_hazards.md R146, R152). Where the count of R146 begins is log entry 20. -/
def offerAll (p : Params) : Nat → List CmdWord → State → Host.Outcome State Fault Refusal
  | 0, _, s => .next s
  | n + 1, ws, s =>
    match edge p (offerFirst ws) s with
    | .next t => offerAll p n (if accepts p (offerFirst ws) s then ws.tail else ws) t
    | .fault r => .fault r
    | .refused r => .refused r

/-- Nothing is in flight and every result has been taken (70_reset_and_hazards.md R153); a host that keeps its duty
(3) of R152 brings every run to such a state. -/
def State.over (s : State) : Bool := s.inFlight.isEmpty && s.resWaiting.isEmpty

end Sys2Proof.Machine
end

