-- ==== Sys2Proof/Certificates/Slice0/Obligations.lean ====
section
/-! DEFINITION. The statements for the provers, in the order of the spec's files. -/

open Sys2Proof Sys2Proof.Machine
open Sys2Proof.Config (Params)

-- Encoding (30_encoding.md)

/-- 30_encoding.md R61: the op field alone selects the operation; the four rows partition the 1024 words. -/
def Obligations.OpcodeMapPartitionsWords : Prop :=
  (∀ w : CmdWord,
    (decode w = .clr ↔ w &&& 0x300#10 = 0x000#10) ∧
    ((∃ b, decode w = .acc b) ↔ w &&& 0x300#10 = 0x100#10) ∧
    (decode w = .rd ↔ w &&& 0x300#10 = 0x200#10) ∧
    ((∃ d, decode w = .reserved d) ↔ w &&& 0x300#10 = 0x300#10)) ∧
  ∀ m ∈ [0x000#10, 0x100#10, 0x200#10, 0x300#10],
    ((List.range 1024).filter fun n => decide (BitVec.ofNat 10 n &&& 0x300#10 = m)).length = 256

/-- 30_encoding.md R63: the data field of `CLR` and `RD` is ignored; the canonical words; what is printed. -/
def Obligations.DataFieldOfClrAndRdIgnored : Prop :=
  (∀ w : CmdWord, opField w = 0b00#2 → decode w = .clr ∧ disassemble w = ['c', 'l', 'r']) ∧
  (∀ w : CmdWord, opField w = 0b10#2 → decode w = .rd ∧ disassemble w = ['r', 'd']) ∧
  encode .clr = some 0x000#10 ∧ encode .rd = some 0x200#10 ∧
  readLine ['c', 'l', 'r'] = .ok (some .clr) ∧ lineWords .clr = [0x000#10] ∧
  readLine ['r', 'd'] = .ok (some .rd) ∧ lineWords .rd = [0x200#10]

/-- 30_encoding.md R64: the decoder by the op field, the encoder, and where they agree. -/
def Obligations.DecodeAndEncodeAgree : Prop :=
  (∀ w : CmdWord,
    (opField w = 0b00#2 → decode w = .clr) ∧ (opField w = 0b01#2 → decode w = .acc (dataField w)) ∧
    (opField w = 0b10#2 → decode w = .rd) ∧ (opField w = 0b11#2 → decode w = .reserved (dataField w))) ∧
  encode .clr = some 0x000#10 ∧ encode .rd = some 0x200#10 ∧
  (∀ b : Byte, ∃ w, encode (.acc b) = some w ∧ w.toNat = 0x100 + b.toNat) ∧
  (∀ i : Instr, i.wellFormed = true → ∃ w, encode i = some w ∧ decode w = i) ∧
  ∀ w : CmdWord, encode (decode w) = some w ↔
    w.toNat = 0x000 ∨ w.toNat = 0x200 ∨ (0x100 ≤ w.toNat ∧ w.toNat ≤ 0x1FF)

/-- A few of the words of 95_test_vectors.md V3.5 decode to the command they stand for (30_encoding.md R60, R61).
That a number said to have 16 bits may be a word, and that a number above ten bits decodes to nothing, is the
model's choice (log entry 13). -/
def Obligations.DecodesWrittenWords : Prop :=
  decodeTableWord 16 0b00_00000000 = some .clr ∧ decodeTableWord 16 0b00_11111111 = some .clr ∧
  decodeTableWord 16 0b01_00000000 = some (.acc 0x00#8) ∧ decodeTableWord 16 0b01_01111010 = some (.acc 0x7A#8) ∧
  decodeTableWord 16 0b10_00000000 = some .rd ∧ decodeTableWord 16 0b10_11111111 = some .rd ∧
  decodeTableWord 16 0b11_00000000 = some (.reserved 0x00#8) ∧ decodeTableWord 16 0b100_00000000 = none

/-- 30_encoding.md R64, R69, R70: for every program of the assembler, decoding the words of its expansion gives the
commands its lines stand for; only `.word` can give a reserved word; and for every well-formed command, the number
of its encoding decodes back to it. That the number may be given with any `nbits` from 10 on is the model's choice
(log entry 13). -/
def Obligations.ProgramsDecodeToTheirCommands : Prop :=
  (∀ program : List AsmLine,
    (program.flatMap lineWords).map decode = program.flatMap lineCommands ∧
    ((∀ w, .word w ∉ program) → ∀ i ∈ program.flatMap lineCommands, i.wellFormed = true)) ∧
  ∀ i : Instr, i.wellFormed = true →
    ∃ w, encode i = some w ∧ decode w = i ∧ ∀ nbits, 10 ≤ nbits → decodeTableWord nbits w.toNat = some i

/-- 30_encoding.md R63, R69: what the disassembler prints for a word, the assembler reads back as its canonical
word. R63 gives the text of `clr` and `rd`; the text of the other words is the model's choice (log entry 14). -/
def Obligations.DisassemblyAssemblesBack : Prop :=
  ∀ w : CmdWord, assemble [disassemble w] =
    .ok [if opField w = 0b00#2 then 0x000#10 else if opField w = 0b10#2 then 0x200#10 else w]

/-- 30_encoding.md R69, R70: lines of the assembler read as 95_test_vectors.md P1, P3 and P4 give their words, and
the errors of R69. Blanks, comments, the case of digits and a `;` between quotes are the model's choice where the
rules are silent (log entry 14). -/
def Obligations.AssemblesWrittenPrograms : Prop :=
  assemble ["parse \"12\"        ; clr / acc / acc / rd".toList] = .ok [0x000#10, 0x131#10, 0x132#10, 0x200#10] ∧
  assemble ["parse \"-5\"".toList] = .ok [0x000#10, 0x12D#10, 0x135#10, 0x200#10] ∧
  assemble ["clr".toList, "acc '4'".toList, "rd".toList, "acc '2'".toList, "rd".toList, "rd".toList] =
    .ok [0x000#10, 0x134#10, 0x200#10, 0x132#10, 0x200#10, 0x200#10] ∧
  assemble ["accs \"\"".toList, "accn 0x7A, 3".toList, ".word 0x3FF".toList, "acc 48".toList] =
    .ok [0x17A#10, 0x17A#10, 0x17A#10, 0x3FF#10, 0x130#10] ∧
  assemble ["acc ';' ; a comment".toList, "accs \"a;b\"".toList] = .ok [0x13B#10, 0x161#10, 0x13B#10, 0x162#10] ∧
  assemble ["acc 256".toList] = .error .byteOutOfRange ∧ assemble [".word 0x400".toList] = .error .wordOutOfRange

-- CLR (40_initialise.md)

/-- 40_initialise.md R80: `CLR` completes in every state; it writes 0 to `total` and changes nothing else, so the
results that wait stay; the old value has no influence; the words that are `CLR`. -/
def Obligations.ClrWritesZero : Prop :=
  (∀ w : CmdWord, decode w = .clr ↔ w.toNat ≤ 0x0FF) ∧ encode .clr = some 0x000#10 ∧
  ∀ s : State, exec .clr s = .next { s with total := 0#128 } ∧
    ∀ v : Total, exec .clr { s with total := v } = exec .clr s

/-- 40_initialise.md R81: `CLR` is idempotent, absorbs the history on its left, and `CLR`, `RD` emits 0. -/
def Obligations.ClrLaws : Prop :=
  (∀ t c, run t (.clr :: .clr :: c) = run t (.clr :: c)) ∧
  (∀ t c, (run t (c ++ [.clr])).1 = 0#128) ∧
  (∀ t t' c d, run t (c ++ .clr :: d) = ((run t' (.clr :: d)).1, (run t c).2 ++ (run t' (.clr :: d)).2)) ∧
  ∀ t, run t [.clr, .rd] = (0#128, [0#128])

-- ACC (41_multiply_add.md)

/-- 41_multiply_add.md R85: `ACC b` completes in every state and for every byte; it writes
`add(mul10(total), digit(b))` to `total` and changes nothing else; the same as an integer; the words that are
`ACC b`; the corner cases and the worked example. -/
def Obligations.AccMultipliesAndAdds : Prop :=
  (∀ (w : CmdWord) (b : Byte), decode w = .acc b ↔ w.toNat = 0x100 + b.toNat) ∧
  (∀ (b : Byte) (s : State),
    exec (.acc b) s = .next { s with total := add (mul10 s.total) (digit b) } ∧
    exec (.acc b) s = .next { s with total := mac s.total b } ∧
    exec (.acc 0x30#8) s = .next { s with total := mul10 s.total } ∧
    exec (.acc b) { s with total := 0#128 } = .next { s with total := digit b } ∧
    exec (decode 0x132#10) { s with total := 1#128 } = .next { s with total := 12#128 }) ∧
  ∀ (t : Total) (b : Byte),
    ((mac t b).toNat : Int) = (10 * (t.toNat : Int) + ((b.toNat : Int) - 48) % 256) % 2 ^ 128

/-- 41_multiply_add.md R86: MUL10 keeps the low 128 bits of the exact product, which wraps exactly above the
threshold; the rule's examples. -/
def Obligations.Mul10KeepsLowBits : Prop :=
  (∀ t : Total, (mul10 t).toNat = (t.toNat * 10) % 2 ^ 128 ∧ t.toNat * 10 < 2 ^ 132 ∧
    (mulWraps t = true ↔ 0x19999999999999999999999999999999 < t.toNat) ∧
    ((mul10 t).toNat ≠ t.toNat * 10 ↔ 0x19999999999999999999999999999999 < t.toNat)) ∧
  mul10 0#128 = 0#128 ∧ mul10 1#128 = 10#128 ∧
  mul10 0x19999999999999999999999999999999#128 = 0xFFFFFFFFFFFFFFFFFFFFFFFFFFFFFFFA#128 ∧
  mul10 0x1999999999999999999999999999999A#128 = 4#128 ∧
  mul10 (BitVec.ofNat 128 (2 ^ 127)) = 0#128 ∧
  mul10 (BitVec.ofNat 128 (2 ^ 128 - 1)) = 0xFFFFFFFFFFFFFFFFFFFFFFFFFFFFFFF6#128

/-- 41_multiply_add.md R87: DIGIT subtracts at 8 bits and then zero-extends; the rule's examples. -/
def Obligations.DigitSubtractsThenWidens : Prop :=
  (∀ b : Byte, ((digit8 b).toNat : Int) = ((b.toNat : Int) - 48) % 256 ∧
    (0x30 ≤ b.toNat → (digit8 b).toNat = b.toNat - 48) ∧ (b.toNat < 0x30 → (digit8 b).toNat = b.toNat + 208) ∧
    (digit b).extractLsb' 0 8 = digit8 b ∧ (digit b).extractLsb' 8 120 = 0#120 ∧
    (digit b).toNat = (digit8 b).toNat ∧ (digit b).toNat ≤ 255) ∧
  digit 0x30#8 = 0#128 ∧ digit 0x39#8 = 9#128 ∧ digit 0x3A#8 = 10#128 ∧ digit 0x7A#8 = 74#128 ∧
  digit 0xFF#8 = 207#128 ∧ digit 0x2F#8 = 255#128 ∧ digit 0x00#8 = 0xD0#128

/-- 41_multiply_add.md R88: ADD keeps the low 128 bits of the exact sum and drops the carry; when it wraps; the
rule's examples. -/
def Obligations.AddDropsCarry : Prop :=
  (∀ p d : Total, (add p d).toNat = (p.toNat + d.toNat) % 2 ^ 128 ∧ p.toNat + d.toNat < 2 ^ 129 ∧
    (addWraps p d = true ↔ 2 ^ 128 - 1 - d.toNat < p.toNat) ∧
    ((add p d).toNat ≠ p.toNat + d.toNat ↔ 2 ^ 128 - 1 - d.toNat < p.toNat)) ∧
  add 10#128 2#128 = 12#128 ∧
  add 0xFFFFFFFFFFFFFFFFFFFFFFFFFFFFFFFA#128 5#128 = 0xFFFFFFFFFFFFFFFFFFFFFFFFFFFFFFFF#128 ∧
  add 0xFFFFFFFFFFFFFFFFFFFFFFFFFFFFFFFA#128 6#128 = 0#128 ∧
  add 0xFFFFFFFFFFFFFFFFFFFFFFFFFFFFFFF6#128 255#128 = 245#128

/-- 41_multiply_add.md R91: the equivalent forms (a) to (e). -/
def Obligations.EquivalentForms : Prop :=
  (∀ t : Total, mul10 t = (t <<< 3) + (t <<< 1)) ∧
  (∀ b : Byte, (digit8 b).toNat = (b.toNat + 0xD0) % 256) ∧
  (∀ b : Byte, 0x30 ≤ b.toNat → b.toNat ≤ 0x3F → (digit8 b).toNat = (b.extractLsb' 0 4).toNat) ∧
  (∀ (t : Total) (b : Byte), (mac t b).toNat = (10 * t.toNat + (digit8 b).toNat) % 2 ^ 128) ∧
  ∀ (t : Total) (b : Byte), 10 * t.toNat + (digit8 b).toNat ≤ 10 * 2 ^ 128 + 245 ∧
    (10 * t.toNat + (digit8 b).toNat) / 2 ^ 128 ≤ 10

/-- 41_multiply_add.md R92: the three classes of byte, and `digit8` is a bijection. -/
def Obligations.ByteClasses : Prop :=
  (∀ b : Byte, trueDigit b = true → (digit b).toNat = b.toNat - 48 ∧ (digit b).toNat ≤ 9) ∧
  (∀ b : Byte, b.toNat ≤ 0x2F →
    (digit b).toNat = b.toNat + 208 ∧ 208 ≤ (digit b).toNat ∧ (digit b).toNat ≤ 255) ∧
  (∀ b : Byte, 0x3A ≤ b.toNat →
    (digit b).toNat = b.toNat - 48 ∧ 10 ≤ (digit b).toNat ∧ (digit b).toNat ≤ 207) ∧
  Function.Bijective digit8

/-- 41_multiply_add.md R94: the properties (a) to (e) of `mac`. -/
def Obligations.MacProperties : Prop :=
  (∀ t : Total, Function.Injective (mac t)) ∧
  (∀ (t : Total) (b : Byte), mac t b = mac (t + 0x80000000000000000000000000000000#128) b) ∧
  (∀ b : Byte, ¬ Function.Injective fun t => mac t b) ∧
  (∀ (t t' : Total) (b : Byte), t.toNat % 2 ^ 127 = t'.toNat % 2 ^ 127 → mac t b = mac t' b) ∧
  (∀ (t : Total) (b : Byte), (mac t b).getLsbD 0 = (digit8 b).getLsbD 0 ∧
    (mac t b).toNat % 2 = (digit8 b).toNat % 2) ∧
  (∀ (s : List Byte) (t t' : Total),
    (s.foldl mac t).toNat % 2 ^ s.length = (s.foldl mac t').toNat % 2 ^ s.length) ∧
  (∀ b : Byte, mac 0#128 b = digit b) ∧ ∀ t : Total, mac t 0x30#8 = mul10 t

-- RD (42_result.md)

/-- 42_result.md R100: `RD` completes in every state; it adds `total` to the results that wait and changes nothing
else; the result is offered on `res`; no later command alters it; the words that are `RD`. -/
def Obligations.RdEmitsTotal : Prop :=
  (∀ w : CmdWord, decode w = .rd ↔ 0x200 ≤ w.toNat ∧ w.toNat ≤ 0x2FF) ∧ encode .rd = some 0x200#10 ∧
  ∀ s : State, exec .rd s = .next { s with resWaiting := s.resWaiting ++ [s.total] } ∧
    (∀ p : Params, s.resWaiting = [] →
      resValid { s with resWaiting := s.resWaiting ++ [s.total] } = true ∧
      res p { s with resWaiting := s.resWaiting ++ [s.total] } = s.total) ∧
    ∀ (i : Instr) (t : State), exec i { s with resWaiting := s.resWaiting ++ [s.total] } = .next t →
      s.resWaiting ++ [s.total] <+: t.resWaiting

/-- 42_result.md R101 (a) to (c): removing an `RD` removes its one result and nothing else; two in a row emit the
same value; as many results as `RD` commands, the k-th from the k-th. -/
def Obligations.RdLaws : Prop :=
  (∀ t c d, (run t (c ++ .rd :: d)).1 = (run t (c ++ d)).1 ∧
    ∃ before after, (run t (c ++ d)).2 = before ++ after ∧
      before = (run t c).2 ∧ (run t (c ++ .rd :: d)).2 = before ++ (run t c).1 :: after) ∧
  (∀ t, run t [.rd, .rd] = (t, [t, t])) ∧
  ∀ t c, (run t c).2.length = c.countP (fun i => decide (i = .rd))

-- Reserved words (30_encoding.md R66)

/-- The hardware's behaviour for a reserved word, the spec's own choice D5 (30_encoding.md R66; the model's choice
to give it, log entry 2): it completes in every state and changes nothing, whatever its data field. A sequence that
holds one is refused by `checkSequence`, and without it the run is the same. In the pipeline it holds nothing: while
it is the oldest command it leaves the stage at once, and, in a state of the kind that every edge keeps, `cmd_ready`
is up once the recovery is over (the pipeline of log entries 6 and 8). -/
def Obligations.ReservedWordHasNoEffect : Prop :=
  (∀ (data : Byte) (s : State), exec (.reserved data) s = .next s) ∧
  (∀ (ws : List CmdWord) (w : CmdWord), w ∈ ws → (decode w).wellFormed = false →
    ∃ data, checkSequence ws = .refused (.reservedWordInSequence data)) ∧
  (∀ t c, run t c = run t (c.filter Instr.wellFormed)) ∧
  ∀ (p : Params) (s : State) (c : InFlight) (rest : List InFlight) (data : Byte), s.inFlight = c :: rest →
    decode c.word = .reserved data →
    executeOldest p s = .next (s.setInFlight (ageAll rest)) ∧
    (Paced p s → recovered p s = true → cmdReady p false s = true)

/-- 00_scope.md R11, 60_exceptions.md R120 and 43_transactions.md R107: every command in every state has a next
state, and it is the one of `commandStep`: `total` becomes its new value, its result, if any, joins the results that
wait, and nothing else changes. That a reserved word has the step of R66 here, where R66 and U3 ask a model to
refuse it, is the model's choice (log entry 2). -/
def Obligations.EveryCommandCompletes : Prop :=
  ∀ (i : Instr) (s : State), exec i s = .next { s with
    total := (commandStep s.total i).1,
    resWaiting := s.resWaiting ++ (commandStep s.total i).2.toList }

-- Sequences (43_transactions.md)

/-- 43_transactions.md R106: the parse transaction, its words, and its one result from every start; the sequences
of transactions are exactly the framed ones, and each gives the results of its strings. -/
def Obligations.TransactionComputesParse : Prop :=
  (∀ s : List Byte, (transactionWords s).map decode = transaction s ∧ lineWords (.parse s) = transactionWords s ∧
    (transactionWords s).length = s.length + 2) ∧
  (∀ (t : Total) (s : List Byte), run t (transaction s) = (parse s, [parse s])) ∧
  (∀ c : List Instr, framed false c = true ↔ ∃ strings : List (List Byte), c = strings.flatMap transaction) ∧
  ∀ (t : Total) (strings : List (List Byte)), (run t (strings.flatMap transaction)).2 = strings.map parse

/-- 43_transactions.md R107, 70_reset_and_hazards.md R154: a run applies the step of R107 from left to right and
collects the results in order, and runs compose. -/
def Obligations.RunsCompose : Prop :=
  (∀ t, run t [] = (t, [])) ∧
  (∀ t, run t [.clr] = (0#128, []) ∧ (∀ b, run t [.acc b] = (mac t b, [])) ∧ run t [.rd] = (t, [t])) ∧
  ∀ t c d, run t (c ++ d) = ((run (run t c).1 d).1, (run t c).2 ++ (run (run t c).1 d).2)

/-- 43_transactions.md R117: the empty input; a terminator byte would be consumed with digit value 208. -/
def Obligations.EmptyInputGivesZero : Prop :=
  parse [] = 0#128 ∧ transaction [] = [.clr, .rd] ∧ (∀ t, run t (transaction []) = (0#128, [0#128])) ∧
  digit 0x00#8 = 208#128

/-- 43_transactions.md R108: the closed form of `parse`. -/
def Obligations.ParseClosedForm : Prop :=
  ∀ s : List Byte, (parse s).toNat =
    (∑ i : Fin s.length, (digit8 (s.get i)).toNat * 10 ^ (s.length - 1 - i.val)) % 2 ^ 128

/-- 43_transactions.md R109: a string of true digits is read as the number it spells, modulo 2^128; the decimal
string of every number below 2^128, with any leading zeros, gives that number; the largest has 39 digits. -/
def Obligations.DigitStringsReadExactly : Prop :=
  (∀ s : List Byte, (∀ b ∈ s, trueDigit b = true) →
    (parse s).toNat = Nat.ofDigits 10 (s.map fun b => b.toNat - 48).reverse % 2 ^ 128) ∧
  (∀ zeros n : Nat, n < 2 ^ 128 →
    (parse (List.replicate zeros 0x30#8 ++ (Nat.digits 10 n).reverse.map fun d => BitVec.ofNat 8 (d + 48))).toNat
      = n) ∧
  (Nat.digits 10 (2 ^ 128 - 1)).length = 39

/-- 43_transactions.md R110, by R109: every digit string that spells 2^128 or more wraps, to the number it spells
modulo 2^128, and what decides is the number and not the length; the rule's examples. -/
def Obligations.LargeDigitStringsWrap : Prop :=
  (∀ s : List Byte, (∀ b ∈ s, trueDigit b = true) →
    ((parse s).toNat ≠ Nat.ofDigits 10 (s.map fun b => b.toNat - 48).reverse ↔
      2 ^ 128 ≤ Nat.ofDigits 10 (s.map fun b => b.toNat - 48).reverse) ∧
    (2 ^ 128 ≤ Nat.ofDigits 10 (s.map fun b => b.toNat - 48).reverse →
      (parse s).toNat = Nat.ofDigits 10 (s.map fun b => b.toNat - 48).reverse % 2 ^ 128)) ∧
  parse ((Nat.digits 10 (2 ^ 128)).reverse.map fun d => BitVec.ofNat 8 (d + 48)) = 0#128 ∧
  parse ((Nat.digits 10 (2 ^ 128 + 1)).reverse.map fun d => BitVec.ofNat 8 (d + 48)) = 1#128 ∧
  parse (0x31#8 :: List.replicate 39 0x30#8) = BitVec.ofNat 128 (10 ^ 39) ∧
  (BitVec.ofNat 128 (10 ^ 39)).toNat = 319435266158123073073250785136463577088 ∧
  parse (List.replicate 50 0x30#8 ++ [0x34#8, 0x32#8]) = 42#128

/-- 43_transactions.md R111: only the last 128 bytes matter; a byte followed by j others does not reach the low j
bits; the low k bits come from the last k bytes; after 128 bytes the start value is forgotten. -/
def Obligations.OnlyLastBytesMatter : Prop :=
  (∀ s : List Byte, 128 ≤ s.length → parse s = parse (s.drop (s.length - 128))) ∧
  (∀ (u v : List Byte) (b b' : Byte),
    (parse (u ++ b :: v)).toNat % 2 ^ v.length = (parse (u ++ b' :: v)).toNat % 2 ^ v.length) ∧
  (∀ u u' v : List Byte, (parse (u ++ v)).toNat % 2 ^ v.length = (parse (u' ++ v)).toNat % 2 ^ v.length) ∧
  (∀ (s : List Byte) (t t' : Total), 128 ≤ s.length → s.foldl mac t = s.foldl mac t') ∧
  parse (List.replicate 2000 0x7A#8) = parse (List.replicate 128 0x7A#8)

/-- 43_transactions.md R112, by R105: input of any bytes, digits or not, has the value the fold gives, byte by byte
from 0, and its transaction emits that value from every start; the rule's examples. -/
def Obligations.NonDigitInputIsDetermined : Prop :=
  parse [] = 0#128 ∧ (∀ (s : List Byte) (b : Byte), parse (s ++ [b]) = mac (parse s) b) ∧
  (∀ (t : Total) (s : List Byte), run t (transaction s) = (parse s, [parse s])) ∧
  parse [0x2D#8, 0x35#8] = 2535#128 ∧ parse [0x20#8, 0x31#8, 0x32#8] = 24012#128 ∧
  parse [0x31#8, 0x32#8, 0x20#8] = 360#128 ∧ parse [0x31#8, 0x7A#8] = 84#128

/-- 43_transactions.md R113: prefixes, continuation, concatenation, and bytes of two strings mixed on one
instance. -/
def Obligations.PrefixesAndConcatenation : Prop :=
  (∀ (t : Total) (s : List Byte) (k : Nat),
    run t (.clr :: ((s.take k).map .acc ++ [.rd])) = (parse (s.take k), [parse (s.take k)])) ∧
  (∀ (t : Total) (s u : List Byte), run t (.clr :: (s.map .acc ++ .rd :: (u.map .acc ++ [.rd]))) =
    (parse (s ++ u), [parse s, parse (s ++ u)])) ∧
  (∀ s u : List Byte,
    (parse (s ++ u)).toNat = ((parse s).toNat * 10 ^ u.length + (parse u).toNat) % 2 ^ 128) ∧
  (∀ t : Total, run t [.clr, .acc 0x34#8, .rd, .acc 0x32#8, .rd] = (42#128, [4#128, 42#128])) ∧
  ∀ (t : Total) (s u m : List Byte), s.Sublist m → u.Sublist m → m.length = s.length + u.length →
    run t (transaction m) = (parse m, [parse m])

/-- 10_state.md R22: every value of `total` is reached by 39 digit bytes from 0, so by a run of commands from every
start. -/
def Obligations.EveryTotalReachable : Prop :=
  ∀ v : Total, ∃ s : List Byte, s.length = 39 ∧ (∀ b ∈ s, trueDigit b = true) ∧ parse s = v ∧
    ∀ t : Total, (run t (.clr :: s.map .acc)).1 = v

/-- 43_transactions.md R116 with the values of 95_test_vectors.md V4.13 and V4.14: the two stress inputs. -/
def Obligations.LongInputsComplete : Prop :=
  (∀ s : List Byte, (transaction s).length = s.length + 2) ∧
  (∀ t, run t (transaction (List.replicate 2000 0x7A#8)) =
    (0x8E38E38E38E38E38E38E38E38E38E386#128, [0x8E38E38E38E38E38E38E38E38E38E386#128])) ∧
  parse ((List.range 256).map (BitVec.ofNat 8)) = 0x329161F9ADD3C0CA4587E6B74F0328FF#128

-- The ports, the pipeline and reset (10_state.md, 20_memory.md, 60_exceptions.md, 70_reset_and_hazards.md)

/-- 10_state.md R29: what reset leaves. -/
def Obligations.ResetState : Prop :=
  State.reset.total = 0#128 ∧ State.reset.inFlight = [] ∧ State.reset.resWaiting = [] ∧
  resValid State.reset = false ∧ (∀ p : Params, cmdReady p true State.reset = false) ∧ State.reset.clean = true

/-- 70_reset_and_hazards.md R140: at every edge with `rst` = 1, from every state, `total` becomes 0, the commands in
flight and the results waiting are discarded, and nothing is accepted or taken; holding it longer repeats the
effect; after it `cmd_ready` rises within `CMD_LATENCY_MAX` edges. -/
def Obligations.ResetEdgeEmptiesTheCore : Prop :=
  (∀ (p : Params) (pin : PortIn) (s : State), pin.rst = true →
    edge p pin s = .next { State.reset with pins := s.pins, edge := s.edge + 1 } ∧
    accepts p pin s = false ∧ takes pin s = false ∧ cmdReady p pin.rst s = false) ∧
  ∀ (p : Params) (pins : List PortIn) (s t : State),
    (∀ pin ∈ pins, pin.rst = false ∧ pin.cmdValid = false) → p.cmdLatencyMax ≤ pins.length →
    edges p pins (resetEdge s) = .next t → cmdReady p false t = true ∧ t.total = 0#128 ∧ t.clean = true

/-- 70_reset_and_hazards.md R143 (1): after power-up the first reset gives the state of R29 whatever stood there; a
command offered before it, which the rule gives no effect, is refused (the model's choice, log entry 4). -/
def Obligations.FirstResetAfterPowerUp : Prop :=
  (∀ (p : Params) (pin : PortIn), pin.rst = true → edge p pin State.powerUp = .next { State.reset with edge := 1 }) ∧
  ∀ (p : Params) (pin : PortIn), pin.rst = false → pin.cmdValid = true →
    edge p pin State.powerUp = .refused .commandBeforeReset

/-- 70_reset_and_hazards.md R141: a reset abandons a transaction: after it no result ever comes of the commands
accepted before it. -/
def Obligations.ResetAbandonsTransaction : Prop :=
  ∀ (p : Params) (pin : PortIn) (pins : List PortIn) (s t : State), pin.rst = true →
    (∀ q ∈ pins, q.cmdValid = false) → edges p (pin :: pins) s = .next t →
    t.total = 0#128 ∧ t.resWaiting = [] ∧ t.taken = [] ∧ t.accepted = []

/-- 20_memory.md R48: when a command is accepted, and that it joins the pipeline once, with the word on `cmd`,
behind what the accumulator stage leaves there: every command that was in flight, in order, but for the oldest where
it has completed. That an accepted command is still in flight after its own edge, and that the stage comes before
the acceptance, is the model's choice (log entry 8). -/
def Obligations.CommandPortAccepts : Prop :=
  (∀ (p : Params) (pin : PortIn) (s : State), accepts p pin s = true ↔
    pin.rst = false ∧ pin.cmdValid = true ∧ cmdReady p pin.rst s = true) ∧
  ∀ (p : Params) (pin : PortIn) (s t : State), pin.rst = false → s.resetSeen = true → edge p pin s = .next t →
    ∃ u, executeOldest p (takeResult pin s) = .next u ∧
      (u.inFlight = ageAll s.inFlight ∨ u.inFlight = ageAll s.inFlight.tail) ∧
      (accepts p pin s = true → t.accepted = s.accepted ++ [pin.cmd] ∧
        t.inFlight = u.inFlight ++ [{ word := pin.cmd, left := p.cmdLatencyMaxMinusOne }]) ∧
      (accepts p pin s = false → t.accepted = s.accepted ∧ t.inFlight = u.inFlight)

/-- 30_encoding.md R71: a word that is not accepted has no meaning and no effect, whatever it is. -/
def Obligations.UnacceptedWordHasNoEffect : Prop :=
  ∀ (p : Params) (pin : PortIn) (s : State) (w : CmdWord),
    pin.cmdValid = false ∨ cmdReady p pin.rst s = false ∨ pin.rst = true →
    edge p { pin with cmd := w } s = edge p pin s

/-- 20_memory.md R49: a result is taken when both sides are up, and it is the one on `res`; the rest follow in
order; while it is not taken `res_valid` stays up and `res` unchanged. That at most one result comes of an edge
is the model's choice, its one accumulator stage (log entry 1). -/
def Obligations.ResultPortHandsOver : Prop :=
  (∀ (pin : PortIn) (s : State),
    takes pin s = true ↔ pin.rst = false ∧ resValid s = true ∧ pin.resReady = true) ∧
  ∀ (p : Params) (pin : PortIn) (s t : State), pin.rst = false → s.resetSeen = true → edge p pin s = .next t →
    (takes pin s = true → ∃ rest new, s.resWaiting = res p s :: rest ∧ t.taken = s.taken ++ [res p s] ∧
      t.resWaiting = rest ++ new ∧ new.length ≤ 1) ∧
    (takes pin s = false → t.taken = s.taken ∧
      ∃ new, t.resWaiting = s.resWaiting ++ new ∧ new.length ≤ 1) ∧
    (resValid s = true → takes pin s = false → resValid t = true ∧ res p t = res p s)

/-- 60_exceptions.md R123 (2): a command acceptance and a result transfer at one edge do not interact: offering or
not offering a command leaves the results alone, and taking or not taking a result leaves the acceptance alone.
That the offer leaves `total` and the waiting results the same at that very edge, since an accepted command executes
at a later edge and one command an edge, is the model's choice (log entries 1 and 8). -/
def Obligations.AcceptanceAndTransferIndependent : Prop :=
  ∀ (p : Params) (pin : PortIn) (s t t' : State), pin.rst = false → s.resetSeen = true →
    (edge p { pin with cmdValid := true } s = .next t → edge p { pin with cmdValid := false } s = .next t' →
      t.taken = t'.taken ∧ t.resWaiting = t'.resWaiting ∧ t.total = t'.total) ∧
    (edge p { pin with resReady := true } s = .next t → edge p { pin with resReady := false } s = .next t' →
      t.accepted = t'.accepted ∧ t.total = t'.total)

/-- 70_reset_and_hazards.md R149: the complete list of reasons for `cmd_ready` = 0: reset or the recovery, within
`CMD_LATENCY_MAX`; a full pipeline whose oldest command the stage keeps, for as long as `CMD_LATENCY_MAX` leaves it
an edge; a full pipeline whose oldest command is an `RD` at a full result port; or more commands in flight than
could complete in time, which in a state of the kind that every edge keeps stand behind an `RD` (the model's
pipeline, log entries 5, 6, 8 and 9). -/
def Obligations.HoldsAreComplete : Prop :=
  (∀ (p : Params) (rst : Bool) (s : State), cmdReady p rst s = false ↔
    rst = true ∨ s.sinceReset < recoveryEdges p s ∨ p.cmdLatencyMax < s.inFlight.length ∨
    (p.pipeStages ≤ s.inFlight.length ∧
      ∃ c rest, s.inFlight = c :: rest ∧ (stageHolds p c s = true ∨ stalls p (decode c.word) s = true))) ∧
  (∀ (p : Params) (s : State), recoveryEdges p s ≤ p.cmdLatencyMax) ∧
  (∀ (p : Params) (c : InFlight) (s : State), stageHolds p c s = true → 0 < c.left) ∧
  (∀ (p : Params) (s : State), Paced p s → p.cmdLatencyMax < s.inFlight.length →
    ∃ c rest, s.inFlight = c :: rest ∧ decode c.word = .rd ∧ rest.length = p.cmdLatencyMax) ∧
  ∀ (p : Params) (i : Instr) (s : State), stalls p i s = true ↔ i = .rd ∧ p.resDepth ≤ s.resWaiting.length

/-- 10_state.md R20, 60_exceptions.md R128: with nothing in flight, an edge at which the host pauses changes nothing
but the count of edges. -/
def Obligations.IdleCoreHoldsTotal : Prop :=
  ∀ (p : Params) (pin : PortIn) (s : State), pin.rst = false → pin.cmdValid = false → pin.resReady = false →
    s.resetSeen = true → s.inFlight = [] →
    edge p pin s = .next { s with edge := s.edge + 1, sinceReset := s.sinceReset + 1 }

/-- A step runs the decoded command: when the accumulator stage does not keep the oldest command and, for an `RD`,
there is room for its result, the step is `exec` of what its word decodes to, on the state after the result
transfer and without that command; around it stand the transfer, the acceptance and the count of edges
(20_memory.md R45, 70_reset_and_hazards.md R145). The order of these within the edge, and that the room is counted
after the transfer of the same edge, are the model's choice (log entry 8). -/
def Obligations.StepRunsTheDecodedCommand : Prop :=
  ∀ (s : State) (c : InFlight) (rest : List InFlight),
    s.resetSeen = true → (nextPins s).rst = false → s.inFlight = c :: rest →
    stageHolds Config.params c s = false →
    (decode c.word = .rd →
      (takeResult (nextPins s) s.dropPins).resWaiting.length < Config.params.resDepth) →
    ∃ u, exec (decode c.word) ((takeResult (nextPins s) s.dropPins).setInFlight (ageAll rest)) = .next u ∧
      step s = .next (acceptCommand Config.params (nextPins s) s.dropPins u).tick

/-- 10_state.md R26, the bounds of the hidden state: every step keeps them, from every state that meets them. The
bound on the edges left to a command is that of the model's own count (log entry 6). -/
def Obligations.StepKeepsHiddenStateBounded : Prop :=
  ∀ s s' : State, Bounded Config.params s → step s = .next s' → Bounded Config.params s'

/-- 20_memory.md R45, the ordering model: every step keeps it, from every state that meets it, whatever the open
parameters are. The start value is 0, `RESET_TOTAL` (10_state.md R29). -/
def Obligations.StepKeepsAcceptanceOrder : Prop :=
  ∀ s s' : State, InOrder 0#128 s → step s = .next s' → InOrder 0#128 s'

/-- 20_memory.md R45 (d): an edge keeps the ordering model for every choice of the parameters and every start value;
an edge with reset starts it anew at 0, the value of reset (70_reset_and_hazards.md R140, 10_state.md R29). -/
def Obligations.EdgeKeepsAcceptanceOrder : Prop :=
  ∀ (p : Params) (pin : PortIn) (t : Total) (s s' : State), InOrder t s → edge p pin s = .next s' →
    InOrder (if pin.rst then 0#128 else t) s'

/-- The invariants hold right after reset. -/
def Obligations.InvariantsHoldAtReset : Prop :=
  (∀ p : Params, Bounded p State.reset ∧ Paced p State.reset ∧ OnTime p State.reset) ∧ InOrder 0#128 State.reset

/-- 70_reset_and_hazards.md R153, R154: a run from a clean state, over edges without reset and over when nothing is
in flight and no result waits, yields what the transaction level says of its accepted commands. -/
def Obligations.FinishedRunIsTheFold : Prop :=
  ∀ (p : Params) (pins : List PortIn) (s t : State), s.clean = true → (∀ pin ∈ pins, pin.rst = false) →
    edges p pins s = .next t → t.over = true →
    ∃ ws rs, t.accepted = s.accepted ++ ws ∧ t.taken = s.taken ++ rs ∧
      run s.total (commands ws) = (t.total, rs)

/-- 43_transactions.md R106 on the ports: a finished run from a clean state whose accepted words are the parse
transaction of a string hands over exactly one result, `parse` of the string. -/
def Obligations.ParseOnThePorts : Prop :=
  ∀ (p : Params) (pins : List PortIn) (s t : State) (text : List Byte), s.clean = true →
    (∀ pin ∈ pins, pin.rst = false) → edges p pins s = .next t → t.over = true →
    t.accepted = s.accepted ++ transactionWords text →
    t.taken = s.taken ++ [parse text] ∧ t.total = parse text

/-- 43_transactions.md R106 and 70_reset_and_hazards.md R152 (5), R153: a finished run from a clean state whose
accepted commands are framed as parse transactions hands over `parse` of each string, in order. -/
def Obligations.FramedUseParsesEveryString : Prop :=
  ∀ (p : Params) (pins : List PortIn) (s t : State) (ws : List CmdWord), s.clean = true →
    (∀ pin ∈ pins, pin.rst = false) → edges p pins s = .next t → t.over = true →
    t.accepted = s.accepted ++ ws → framed false (commands ws) = true →
    ∃ strings : List (List Byte), commands ws = strings.flatMap transaction ∧
      t.taken = s.taken ++ strings.map parse

/-- 00_scope.md R12, 70_reset_and_hazards.md R144, 43_transactions.md R115: two instances with any parameters and
any spacing of the same accepted commands, from equal totals or with a leading `CLR`, end with equal totals and
hand over equal results. -/
def Obligations.TimingHasNoInfluence : Prop :=
  ∀ (p p' : Params) (pins pins' : List PortIn) (s s' t t' : State) (ws : List CmdWord),
    s.clean = true → s'.clean = true → (∀ pin ∈ pins, pin.rst = false) → (∀ pin ∈ pins', pin.rst = false) →
    edges p pins s = .next t → edges p' pins' s' = .next t' →
    t.over = true → t'.over = true →
    t.accepted = s.accepted ++ ws → t'.accepted = s'.accepted ++ ws →
    s.total = s'.total ∨ (commands ws).head? = some .clr →
    t.total = t'.total ∧ ∃ rs, t.taken = s.taken ++ rs ∧ t'.taken = s'.taken ++ rs

/-- 60_exceptions.md R120, 70_reset_and_hazards.md R147: after a reset no list of edges ever stops the machine. -/
def Obligations.NeverStopsAfterReset : Prop :=
  ∀ (p : Params) (pins : List PortIn) (s : State), s.resetSeen = true →
    ∃ t, edges p pins s = .next t ∧ t.resetSeen = true

/-- 70_reset_and_hazards.md R146: from a state in which every command can be on time, and while the host takes
results, so that the result port holds none, every command in flight at some edge has completed `CMD_LATENCY_MAX`
edges later: what is then in flight was accepted since. `OnTime`, which says that every command can be on time,
speaks of the model's own count (log entry 6). -/
def Obligations.CommandsCompleteInTime : Prop :=
  ∀ (p : Params) (pins : List PortIn) (s t : State), s.resetSeen = true → OnTime p s →
    (∀ pin ∈ pins, pin.rst = false ∧ pin.resReady = true) → p.cmdLatencyMax ≤ pins.length →
    edges p pins s = .next t → t.inFlight.length + s.accepted.length ≤ t.accepted.length

/-- 70_reset_and_hazards.md R147: while the host takes results, a command it keeps on offer is accepted within
`CMD_LATENCY_MAX` edges and one more, however full the pipeline and even during the recovery. The rule says finitely
many; the number is the model's (log entries 6, 8 and 9). -/
def Obligations.OfferedCommandIsAccepted : Prop :=
  ∀ (p : Params) (s t : State) (w : CmdWord), s.resetSeen = true → Paced p s →
    edges p (List.replicate (p.cmdLatencyMax + 1)
      { rst := false, cmdValid := true, cmd := w, resReady := true }) s = .next t →
    ∃ ws, t.accepted = s.accepted ++ w :: ws

/-- 70_reset_and_hazards.md R152 (4), 30_encoding.md R66: `checkSequence` admits exactly the sequences without a
reserved word, as their commands; what a host that keeps its duties has accepted since reset is admitted. -/
def Obligations.DutifulHostIsAdmitted : Prop :=
  (∀ ws is, checkSequence ws = .next is ↔ is = commands ws ∧ ∀ w ∈ ws, (decode w).wellFormed = true) ∧
  ∀ (p : Params) (pins : List PortIn) (t : State), hostKeepsDuties p pins State.reset = true →
    edges p pins State.reset = .next t → checkSequence t.accepted = .next (commands t.accepted)

/-- The port-level trace that ends 95_test_vectors.md, with the reference organisation of 70_reset_and_hazards.md
R145, from any state: one command accepted at each edge, the result valid after the fifth and taken at the sixth. -/
def Obligations.ReferenceTraceOfParse12 : Prop :=
  ∀ (s t u : State) (x : CmdWord) (a b c d e : Bool),
    edges Config.referenceParams
      [{ rst := true, cmdValid := a, cmd := x, resReady := b },
       { rst := false, cmdValid := true, cmd := 0x000#10, resReady := c },
       { rst := false, cmdValid := true, cmd := 0x131#10, resReady := d },
       { rst := false, cmdValid := true, cmd := 0x132#10, resReady := e },
       { rst := false, cmdValid := true, cmd := 0x200#10, resReady := a },
       { rst := false, cmdValid := false, cmd := x, resReady := b }] s = .next t →
    edge Config.referenceParams { rst := false, cmdValid := false, cmd := x, resReady := true } t = .next u →
    t.accepted = [0x000#10, 0x131#10, 0x132#10, 0x200#10] ∧ t.total = 12#128 ∧ t.inFlight = [] ∧
    resValid t = true ∧ res Config.referenceParams t = 12#128 ∧
    u.taken = [12#128] ∧ u.total = 12#128 ∧ resValid u = false

/-- 70_reset_and_hazards.md R146: while the host takes results, or resets, every edge keeps every command able to be
on time, so that the premise of `CommandsCompleteInTime` holds from reset on for as long as the result port holds nothing. The
count of the edges left to a command is the model's (log entry 6). -/
def Obligations.EdgeKeepsCommandsOnTime : Prop :=
  ∀ (p : Params) (pin : PortIn) (s t : State), pin.rst = true ∨ pin.resReady = true → OnTime p s →
    edge p pin s = .next t → OnTime p t

/-- 70_reset_and_hazards.md R146: from a clean state in which `cmd_ready` is up, with the host offering the commands
of a transaction of n bytes without pause and taking results, the transaction has completed (n + 2) *
`CMD_LATENCY_MAX` edges after the one at which its first command is accepted, the first of this run: nothing is in
flight, every command has been accepted, and its one result has been produced. The rule counts from the host's
offering. That the count here begins at a clean core with `cmd_ready` up and at the first acceptance, so that the
wait of an offer made during the recovery or behind earlier commands is not in it, is the model's choice (DESIGN
CHOICE, log entry 20). -/
def Obligations.TransactionCompletesInTime : Prop :=
  ∀ (p : Params) (text : List Byte) (n : Nat) (s : State), s.clean = true → cmdReady p false s = true →
    (text.length + 2) * p.cmdLatencyMax ≤ n →
    ∃ t, offerAll p (n + 1) (transactionWords text) s = .next t ∧ t.inFlight = [] ∧
      t.accepted = s.accepted ++ transactionWords text ∧ t.total = parse text ∧
      t.taken ++ t.resWaiting = s.taken ++ [parse text]

/-- 70_reset_and_hazards.md R146: every edge, whatever the host does, keeps the counts of `CMD_LATENCY_MAX` in order
and lets more commands than the bound pile up only behind an `RD`, for all parameters. The counts are the model's
(log entry 6). -/
def Obligations.EdgeKeepsPace : Prop :=
  ∀ (p : Params) (pin : PortIn) (s t : State), Paced p s → edge p pin s = .next t → Paced p t

/-- 70_reset_and_hazards.md R146: a command accepted at some edge has completed `CMD_LATENCY_MAX` edges later, if the
result port has room from that edge on, also where commands have piled up behind an `RD` before: what is then in
flight was accepted after it. The premise `Paced` holds from reset on (`EdgeKeepsPace`; log entry 6). -/
def Obligations.AcceptedCommandCompletesInTime : Prop :=
  ∀ (p : Params) (pin : PortIn) (pins : List PortIn) (s t u : State), s.resetSeen = true → Paced p s →
    accepts p pin s = true → edge p pin s = .next t →
    (∀ q ∈ pin :: pins, q.rst = false ∧ q.resReady = true) → p.cmdLatencyMax ≤ pins.length →
    edges p pins t = .next u →
    t.accepted = s.accepted ++ [pin.cmd] ∧ u.inFlight.length + t.accepted.length ≤ u.accepted.length
end

