-- ==== Sys2Proof/Laws/Ops.lean ====
section
/-! SUPPORT. What each arithmetic operation does, as a fact about integers. -/

namespace Sys2Proof.Machine

theorem addN_toNat {n : Nat} (a b : BitVec n) : (addN a b).toNat = (a.toNat + b.toNat) % 2 ^ n := by
  simp [addN]

theorem mulN_toNat {n : Nat} (a b : BitVec n) : (mulN a b).toNat = (a.toNat * b.toNat) % 2 ^ n := by
  simp [mulN]

theorem subN_eq_sub {n : Nat} (a b : BitVec n) : subN a b = a - b := by
  apply BitVec.eq_of_toInt_eq
  rw [subN, BitVec.toInt_ofInt, BitVec.toInt_sub, BitVec.toInt_eq_toNat_bmod, BitVec.toInt_eq_toNat_bmod,
    Int.sub_bmod_bmod, Int.bmod_sub_bmod]

theorem zextN_toNat {n m : Nat} (v : BitVec m) : (zextN n v).toNat = v.toNat % 2 ^ n := by
  simp [zextN]

theorem mul10_toNat (t : Total) : (mul10 t).toNat = (10 * t.toNat) % 2 ^ 128 := by
  rw [mul10, mulN_toNat, Nat.mul_comm]; rfl

theorem add_toNat (p d : Total) : (add p d).toNat = (p.toNat + d.toNat) % 2 ^ 128 := addN_toNat p d

theorem digit8_eq_sub (b : Byte) : digit8 b = b - 0x30#8 := subN_eq_sub b Config.zeroCode

theorem digit8_toNat (b : Byte) : (digit8 b).toNat = (b.toNat + 208) % 256 := by
  rw [digit8_eq_sub]; simp [BitVec.toNat_sub, Nat.add_comm]

theorem digit_toNat (b : Byte) : (digit b).toNat = (digit8 b).toNat := by
  rw [digit, zextN_toNat]; exact Nat.mod_eq_of_lt (lt_trans (digit8 b).isLt (by norm_num))

theorem mac_toNat (t : Total) (b : Byte) :
    (mac t b).toNat = (10 * t.toNat + (digit8 b).toNat) % 2 ^ 128 := by
  rw [mac, add_toNat, mul10_toNat, digit_toNat, Nat.mod_add_mod]

end Sys2Proof.Machine
end

