-- ==== Sys2Proof/Laws/PerInstr.lean ====
section
/-! SUPPORT. The facts that are stated of each command, one lemma for each constructor. -/

namespace Sys2Proof.Laws

/-- A well-formed command has an encoding, and no other command has. -/
def EncodingExists.Statement (i : Instr) : Prop := (encode i).isSome = i.wellFormed

theorem EncodingExists.clr : EncodingExists.Statement .clr := rfl

theorem EncodingExists.acc (b : Byte) : EncodingExists.Statement (.acc b) := rfl

theorem EncodingExists.rd : EncodingExists.Statement .rd := rfl

theorem EncodingExists.reserved (data : Byte) : EncodingExists.Statement (.reserved data) := rfl

end Sys2Proof.Laws
end

