-- ==== Sys2Proof/Laws/State.lean ====
section
/-! SUPPORT. One lemma for each field of each named update of the state. -/

namespace Sys2Proof.Machine

open Sys2Proof.Config (Params)

@[simp] theorem State.setTotal_total (s : State) (v : Total) : (s.setTotal v).total = v := rfl
@[simp] theorem State.setTotal_inFlight (s : State) (v : Total) : (s.setTotal v).inFlight = s.inFlight := rfl
@[simp] theorem State.setTotal_resWaiting (s : State) (v : Total) : (s.setTotal v).resWaiting = s.resWaiting := rfl
@[simp] theorem State.setTotal_resetSeen (s : State) (v : Total) : (s.setTotal v).resetSeen = s.resetSeen := rfl
@[simp] theorem State.setTotal_sinceReset (s : State) (v : Total) : (s.setTotal v).sinceReset = s.sinceReset := rfl
@[simp] theorem State.setTotal_edge (s : State) (v : Total) : (s.setTotal v).edge = s.edge := rfl
@[simp] theorem State.setTotal_accepted (s : State) (v : Total) : (s.setTotal v).accepted = s.accepted := rfl
@[simp] theorem State.setTotal_taken (s : State) (v : Total) : (s.setTotal v).taken = s.taken := rfl
@[simp] theorem State.setTotal_pins (s : State) (v : Total) : (s.setTotal v).pins = s.pins := rfl

@[simp] theorem State.emit_total (s : State) (v : Total) : (s.emit v).total = s.total := rfl
@[simp] theorem State.emit_inFlight (s : State) (v : Total) : (s.emit v).inFlight = s.inFlight := rfl
@[simp] theorem State.emit_resWaiting (s : State) (v : Total) : (s.emit v).resWaiting = s.resWaiting ++ [v] := rfl
@[simp] theorem State.emit_resetSeen (s : State) (v : Total) : (s.emit v).resetSeen = s.resetSeen := rfl
@[simp] theorem State.emit_sinceReset (s : State) (v : Total) : (s.emit v).sinceReset = s.sinceReset := rfl
@[simp] theorem State.emit_edge (s : State) (v : Total) : (s.emit v).edge = s.edge := rfl
@[simp] theorem State.emit_accepted (s : State) (v : Total) : (s.emit v).accepted = s.accepted := rfl
@[simp] theorem State.emit_taken (s : State) (v : Total) : (s.emit v).taken = s.taken := rfl
@[simp] theorem State.emit_pins (s : State) (v : Total) : (s.emit v).pins = s.pins := rfl

@[simp] theorem State.setInFlight_total (s : State) (q : List InFlight) : (s.setInFlight q).total = s.total := rfl
@[simp] theorem State.setInFlight_inFlight (s : State) (q : List InFlight) : (s.setInFlight q).inFlight = q := rfl
@[simp] theorem State.setInFlight_resWaiting (s : State) (q : List InFlight) : (s.setInFlight q).resWaiting = s.resWaiting := rfl
@[simp] theorem State.setInFlight_resetSeen (s : State) (q : List InFlight) : (s.setInFlight q).resetSeen = s.resetSeen := rfl
@[simp] theorem State.setInFlight_sinceReset (s : State) (q : List InFlight) : (s.setInFlight q).sinceReset = s.sinceReset := rfl
@[simp] theorem State.setInFlight_edge (s : State) (q : List InFlight) : (s.setInFlight q).edge = s.edge := rfl
@[simp] theorem State.setInFlight_accepted (s : State) (q : List InFlight) : (s.setInFlight q).accepted = s.accepted := rfl
@[simp] theorem State.setInFlight_taken (s : State) (q : List InFlight) : (s.setInFlight q).taken = s.taken := rfl
@[simp] theorem State.setInFlight_pins (s : State) (q : List InFlight) : (s.setInFlight q).pins = s.pins := rfl

@[simp] theorem ageAll_nil : ageAll [] = [] := rfl
@[simp] theorem ageAll_cons (c : InFlight) (q : List InFlight) :
    ageAll (c :: q) = { c with left := c.left - 1 } :: ageAll q := rfl
@[simp] theorem ageAll_append (q r : List InFlight) : ageAll (q ++ r) = ageAll q ++ ageAll r := List.map_append
@[simp] theorem ageAll_length (q : List InFlight) : (ageAll q).length = q.length := List.length_map _
@[simp] theorem ageAll_words (q : List InFlight) : (ageAll q).map (·.word) = q.map (·.word) := by
  simp [ageAll, Function.comp_def]

@[simp] theorem State.tick_total (s : State) : (s.tick).total = s.total := rfl
@[simp] theorem State.tick_inFlight (s : State) : (s.tick).inFlight = s.inFlight := rfl
@[simp] theorem State.tick_resWaiting (s : State) : (s.tick).resWaiting = s.resWaiting := rfl
@[simp] theorem State.tick_resetSeen (s : State) : (s.tick).resetSeen = s.resetSeen := rfl
@[simp] theorem State.tick_sinceReset (s : State) : (s.tick).sinceReset = s.sinceReset + 1 := rfl
@[simp] theorem State.tick_edge (s : State) : (s.tick).edge = s.edge + 1 := rfl
@[simp] theorem State.tick_accepted (s : State) : (s.tick).accepted = s.accepted := rfl
@[simp] theorem State.tick_taken (s : State) : (s.tick).taken = s.taken := rfl
@[simp] theorem State.tick_pins (s : State) : (s.tick).pins = s.pins := rfl

@[simp] theorem State.dropPins_total (s : State) : (s.dropPins).total = s.total := rfl
@[simp] theorem State.dropPins_inFlight (s : State) : (s.dropPins).inFlight = s.inFlight := rfl
@[simp] theorem State.dropPins_resWaiting (s : State) : (s.dropPins).resWaiting = s.resWaiting := rfl
@[simp] theorem State.dropPins_resetSeen (s : State) : (s.dropPins).resetSeen = s.resetSeen := rfl
@[simp] theorem State.dropPins_sinceReset (s : State) : (s.dropPins).sinceReset = s.sinceReset := rfl
@[simp] theorem State.dropPins_edge (s : State) : (s.dropPins).edge = s.edge := rfl
@[simp] theorem State.dropPins_accepted (s : State) : (s.dropPins).accepted = s.accepted := rfl
@[simp] theorem State.dropPins_taken (s : State) : (s.dropPins).taken = s.taken := rfl
@[simp] theorem State.dropPins_pins (s : State) : (s.dropPins).pins = s.pins.tail := rfl

@[simp] theorem pushCommand_total (p : Params) (w : CmdWord) (s : State) :
    (pushCommand p w s).total = s.total := rfl
@[simp] theorem pushCommand_inFlight (p : Params) (w : CmdWord) (s : State) :
    (pushCommand p w s).inFlight = s.inFlight ++ [{ word := w, left := p.cmdLatencyMaxMinusOne }] := rfl
@[simp] theorem pushCommand_resWaiting (p : Params) (w : CmdWord) (s : State) :
    (pushCommand p w s).resWaiting = s.resWaiting := rfl
@[simp] theorem pushCommand_resetSeen (p : Params) (w : CmdWord) (s : State) :
    (pushCommand p w s).resetSeen = s.resetSeen := rfl
@[simp] theorem pushCommand_sinceReset (p : Params) (w : CmdWord) (s : State) :
    (pushCommand p w s).sinceReset = s.sinceReset := rfl
@[simp] theorem pushCommand_edge (p : Params) (w : CmdWord) (s : State) :
    (pushCommand p w s).edge = s.edge := rfl
@[simp] theorem pushCommand_accepted (p : Params) (w : CmdWord) (s : State) :
    (pushCommand p w s).accepted = s.accepted ++ [w] := rfl
@[simp] theorem pushCommand_taken (p : Params) (w : CmdWord) (s : State) :
    (pushCommand p w s).taken = s.taken := rfl
@[simp] theorem pushCommand_pins (p : Params) (w : CmdWord) (s : State) :
    (pushCommand p w s).pins = s.pins := rfl

@[simp] theorem resetEdge_total (s : State) : (resetEdge s).total = Config.resetTotal := rfl
@[simp] theorem resetEdge_inFlight (s : State) : (resetEdge s).inFlight = [] := rfl
@[simp] theorem resetEdge_resWaiting (s : State) : (resetEdge s).resWaiting = [] := rfl
@[simp] theorem resetEdge_resetSeen (s : State) : (resetEdge s).resetSeen = true := rfl
@[simp] theorem resetEdge_sinceReset (s : State) : (resetEdge s).sinceReset = 0 := rfl
@[simp] theorem resetEdge_edge (s : State) : (resetEdge s).edge = s.edge + 1 := rfl
@[simp] theorem resetEdge_accepted (s : State) : (resetEdge s).accepted = [] := rfl
@[simp] theorem resetEdge_taken (s : State) : (resetEdge s).taken = [] := rfl
@[simp] theorem resetEdge_pins (s : State) : (resetEdge s).pins = s.pins := rfl

end Sys2Proof.Machine
end

