-- ==== Sys2Proof/Laws/Ports.lean ====
section
/-! SUPPORT. What each operation of the port level can do, said once: if it answers a next state, one of the listed
cases holds. -/

namespace Sys2Proof.Machine

open Sys2Proof.Config (Params)

/-- What executing a command can do. -/
theorem exec_cases {i : Instr} {s t : State} (h : exec i s = .next t) :
    (i = .clr ∧ t = s.setTotal Config.initTotal) ∨ (∃ b, i = .acc b ∧ t = s.setTotal (mac s.total b)) ∨
    (i = .rd ∧ t = s.emit s.total) ∨ (∃ data, i = .reserved data ∧ t = s) := by
  cases i with
  | clr => exact .inl ⟨rfl, (Host.Outcome.next.inj h).symm⟩
  | acc b => exact .inr (.inl ⟨b, rfl, (Host.Outcome.next.inj h).symm⟩)
  | rd => exact .inr (.inr (.inl ⟨rfl, (Host.Outcome.next.inj h).symm⟩))
  | reserved data => exact .inr (.inr (.inr ⟨data, rfl, (Host.Outcome.next.inj h).symm⟩))

/-- What the result port can do at an edge: nothing, or hand over the oldest result. -/
theorem takeResult_cases (pin : PortIn) (s : State) :
    (takes pin s = false ∧ takeResult pin s = s) ∨
    (∃ v rest, takes pin s = true ∧ s.resWaiting = v :: rest ∧
      takeResult pin s = { s with resWaiting := rest, taken := s.taken ++ [v] }) := by
  unfold takeResult
  split
  · next v rest ht hs => exact .inr ⟨v, rest, ht, hs, rfl⟩
  · next hn =>
    refine .inl ⟨?_, rfl⟩
    cases ht : takes pin s with
    | false => rfl
    | true =>
      cases hs : s.resWaiting with
      | nil => simp [takes, resValid, hs] at ht
      | cons v rest => exact absurd hs (hn v rest ht)

/-- A result transfer leaves everything but the results alone, and loses or reorders none. -/
theorem takeResult_frame (pin : PortIn) (s : State) :
    (takeResult pin s).total = s.total ∧ (takeResult pin s).inFlight = s.inFlight ∧
    (takeResult pin s).resetSeen = s.resetSeen ∧ (takeResult pin s).sinceReset = s.sinceReset ∧
    (takeResult pin s).edge = s.edge ∧ (takeResult pin s).accepted = s.accepted ∧
    (takeResult pin s).pins = s.pins ∧
    (takeResult pin s).taken ++ (takeResult pin s).resWaiting = s.taken ++ s.resWaiting := by
  rcases takeResult_cases pin s with ⟨-, h⟩ | ⟨v, rest, -, hw, h⟩
  · simp [h]
  · simp [h, hw]

/-- There is room exactly when fewer than `PIPE_STAGES` commands are in flight. -/
theorem pipelineHasRoom_iff {p : Params} {s : State} :
    pipelineHasRoom p s = true ↔ s.inFlight.length < p.pipeStages := by
  unfold pipelineHasRoom Params.pipeStages
  split <;> simp_all

/-- One more command can complete in time exactly when at most `CMD_LATENCY_MAX` are in flight. -/
theorem latencyHasRoom_iff {p : Params} {s : State} :
    latencyHasRoom p s = true ↔ s.inFlight.length ≤ p.cmdLatencyMax := by
  unfold latencyHasRoom Params.cmdLatencyMax
  split <;> simp_all

/-- A word is accepted exactly when the host offers it, without reset, after the recovery, with time and with room. -/
theorem accepts_iff {p : Params} {pin : PortIn} {s : State} :
    accepts p pin s = true ↔ pin.cmdValid = true ∧ pin.rst = false ∧ recovered p s = true ∧
      latencyHasRoom p s = true ∧ (pipelineHasRoom p s = true ∨ oldestCompletes p s = true) := by
  simp [accepts, cmdReady]

/-- The result port is full exactly when `RES_DEPTH` results wait. -/
theorem resultPortFull_iff {p : Params} {s : State} :
    resultPortFull p s = true ↔ p.resDepth ≤ s.resWaiting.length := by
  unfold resultPortFull Params.resDepth
  split <;> simp_all

/-- A command with no edge left is not held by the stage. -/
theorem stageHolds_left {p : Params} {c : InFlight} {s : State} (h : stageHolds p c s = true) : c.left ≠ 0 := by
  intro h0
  simp [stageHolds, h0] at h

/-- A reserved word is neither held nor stalled (30_encoding.md R66, D5). -/
theorem reserved_never_waits {p : Params} {c : InFlight} {s : State} {data : Byte}
    (h : decode c.word = .reserved data) : stageHolds p c s = false ∧ stalls p (decode c.word) s = false := by
  refine ⟨?_, by rw [h]; rfl⟩
  unfold stageHolds
  rw [h]
  split <;> simp_all

/-- What the accumulator stage can do at an edge: nothing to do, keep the oldest command or let it stall, or execute
it. -/
theorem executeOldest_cases {p : Params} {s t : State} (h : executeOldest p s = .next t) :
    (s.inFlight = [] ∧ t = s) ∨
    (∃ c rest, s.inFlight = c :: rest ∧ (stageHolds p c s = true ∨ stalls p (decode c.word) s = true) ∧
      t = s.setInFlight (ageAll (c :: rest))) ∨
    (∃ c rest, s.inFlight = c :: rest ∧ stageHolds p c s = false ∧ stalls p (decode c.word) s = false ∧
      exec (decode c.word) (s.setInFlight (ageAll rest)) = .next t) := by
  unfold executeOldest at h
  split at h
  · next hq => exact .inl ⟨hq, (Host.Outcome.next.inj h).symm⟩
  · next c rest hq =>
    split at h
    · next hw => exact .inr (.inl ⟨c, rest, hq, by simpa using hw, (Host.Outcome.next.inj h).symm⟩)
    · next hw =>
      obtain ⟨h1, h2⟩ : stageHolds p c s = false ∧ stalls p (decode c.word) s = false := by simpa using hw
      exact .inr (.inr ⟨c, rest, hq, h1, h2, h⟩)

/-- Where `cmd_ready` counts on the oldest command, that command completes at the same edge. -/
theorem oldestCompletes_executes {p : Params} {pin : PortIn} {s : State} (h : oldestCompletes p s = true) :
    ∃ c rest, s.inFlight = c :: rest ∧
      executeOldest p (takeResult pin s) = exec (decode c.word) ((takeResult pin s).setInFlight (ageAll rest)) := by
  unfold oldestCompletes at h
  split at h
  · cases h
  · next c rest hq =>
    refine ⟨c, rest, hq, ?_⟩
    obtain ⟨h1, h2⟩ : stageHolds p c s = false ∧ stalls p (decode c.word) s = false := by simpa using h
    have hf := takeResult_frame pin s
    have h3 : stageHolds p c (takeResult pin s) = false := by simpa [stageHolds, hf.2.2.2.2.1] using h1
    have h4 : stalls p (decode c.word) (takeResult pin s) = false := by
      rcases takeResult_cases pin s with ⟨-, e⟩ | ⟨v, more, -, hw, e⟩
      · rw [e]; exact h2
      · rw [e]
        cases hd : decode c.word <;> rw [hd] at h2 <;> try rfl
        rw [stalls, ← Bool.not_eq_true, resultPortFull_iff] at h2 ⊢
        simp [hw] at h2 ⊢
        omega
    simp [executeOldest, hf.2.1, hq, h3, h4]

/-- What the command port can do at an edge: nothing, or take the word on `cmd`. -/
theorem acceptCommand_cases (p : Params) (pin : PortIn) (before s : State) :
    (accepts p pin before = false ∧ acceptCommand p pin before s = s) ∨
    (accepts p pin before = true ∧ acceptCommand p pin before s = pushCommand p pin.cmd s) := by
  unfold acceptCommand
  split
  · next h => exact .inr ⟨h, rfl⟩
  · next h => exact .inl ⟨by simpa using h, rfl⟩

/-- What one edge can do: reset, or the three port actions together, or nothing before the first reset. -/
theorem edge_cases {p : Params} {pin : PortIn} {s t : State} (h : edge p pin s = .next t) :
    (pin.rst = true ∧ t = resetEdge s) ∨
    (pin.rst = false ∧ s.resetSeen = true ∧
      ∃ u, executeOldest p (takeResult pin s) = .next u ∧ t = (acceptCommand p pin s u).tick) ∨
    (pin.rst = false ∧ s.resetSeen = false ∧ pin.cmdValid = false ∧ t = s.tick) := by
  unfold edge at h
  split at h
  · next hr => exact .inl ⟨hr, (Host.Outcome.next.inj h).symm⟩
  · next hr =>
    replace hr : pin.rst = false := by simpa using hr
    split at h
    · next hs =>
      split at h
      · next u hu => exact .inr (.inl ⟨hr, hs, u, hu, (Host.Outcome.next.inj h).symm⟩)
      · cases h
      · cases h
    · next hs =>
      split at h
      · cases h
      · next hv => exact .inr (.inr ⟨hr, by simpa using hs, by simpa using hv, (Host.Outcome.next.inj h).symm⟩)

/-- A list of edges, split at the first. -/
theorem edges_cons {p : Params} {pin : PortIn} {pins : List PortIn} {s t : State}
    (h : edges p (pin :: pins) s = .next t) : ∃ u, edge p pin s = .next u ∧ edges p pins u = .next t := by
  unfold edges at h
  split at h
  · next u hu => exact ⟨u, hu, h⟩
  · cases h
  · cases h

end Sys2Proof.Machine
end

