-- ==== Sys2Proof/Tests/Slice0.lean ====
section
/-! SUPPORT. The model's own tests: the checks of WellFormed, words decoded as the spec's encoding gives them, the
vectors of 95_test_vectors.md on one command each, and for every statement with hypotheses a case that meets them. -/

open Sys2Proof Sys2Proof.Machine
open Sys2Proof.Config (Params referenceParams)

-- WellFormed: an ill-formed term for each check (30_encoding.md R60, R66)

theorem test_reserved_is_ill_formed : Instr.wellFormed (.reserved 0x55#8) = false := by decide

theorem test_eleven_bits_are_no_word : isCmdWord 0x400 = false ∧ isCmdWord 0x3FF = true := by decide

theorem test_eleven_bits_are_rejected_by_name : decodeNat 0x400 = .error .widerThanTenBits := by rfl

-- Decoding: words written out bit by bit from 30_encoding.md R60 and R61

theorem test_decode_clr : decode 0b00_00000000#10 = .clr ∧ decode 0b00_01011010#10 = .clr := by decide

theorem test_decode_acc : decode 0b01_00110111#10 = .acc 0b00110111#8 ∧ decode 0b01_10000001#10 = .acc 0x81#8 := by
  decide

theorem test_decode_rd : decode 0b10_00000000#10 = .rd ∧ decode 0b10_10100101#10 = .rd := by decide

theorem test_decode_reserved : decode 0b11_01010101#10 = .reserved 0x55#8 := by decide

theorem test_encode_acc : encode (.acc 0x7A#8) = some 0x17A#10 := by decide

-- One command each (95_test_vectors.md V3)

/-- `total` of the outcome, for one-step tests. -/
def totalAfter (o : Host.Outcome State Fault Refusal) : Option Total :=
  match o with
  | .next s => some s.total
  | .fault _ => none
  | .refused _ => none

/-- The results that wait after the outcome. -/
def resultsAfter (o : Host.Outcome State Fault Refusal) : Option (List Total) :=
  match o with
  | .next s => some s.resWaiting
  | .fault _ => none
  | .refused _ => none

/-- A state after reset with this total. -/
def withTotal (t : Total) : State := { State.reset with total := t }

theorem test_clr_V3_1_3 : totalAfter (exec .clr (withTotal 0xFFFFFFFFFFFFFFFFFFFFFFFFFFFFFFFF#128)) = some 0#128 := by
  decide

theorem test_acc_V3_2_12 :
    totalAfter (exec (.acc 0x2F#8) (withTotal 0x19999999999999999999999999999999#128)) = some 0xF9#128 := by decide

theorem test_acc_V3_2_21 : totalAfter (exec (.acc 0x41#8) (withTotal 0x0123456789ABCDEF0123456789ABCDEF#128)) =
    some 0x0B60B60B60B60B560B60B60B60B60B67#128 := by decide

theorem test_rd_V3_3_2 : resultsAfter (exec .rd (withTotal 12#128)) = some [12#128] ∧
    totalAfter (exec .rd (withTotal 12#128)) = some 12#128 := by decide

theorem test_reserved_V3_4_1 : totalAfter (exec (decode 0x300#10) (withTotal 12#128)) = some 12#128 ∧
    resultsAfter (exec (decode 0x300#10) (withTotal 12#128)) = some [] := by decide

theorem test_parse_V4_24 : parse [0x31#8, 0x2E#8, 0x35#8] = 2645#128 := by decide

-- The step on a placed word

theorem test_step_runs_placed_acc : totalAfter (step (State.reset.withFetchWord 10 0x137)) = some 7#128 := by decide

theorem test_step_runs_placed_rd : resultsAfter (step ((withTotal 12#128).withFetchWord 16 0x2A5)) = some [12#128] := by
  decide

-- The assembler

theorem test_text_with_escape : readLine "accs \"a;\\x22\" ; b".toList = .ok (some (.accs [0x61#8, 0x3B#8, 0x22#8])) := by
  decide +kernel

theorem test_quoted_semicolon : readLine "acc ';'".toList = .ok (some (.acc 0x3B#8)) := by decide +kernel

-- Cases that meet the hypotheses of the statements

/-- Pins that offer a word and take nothing. -/
def offering (w : CmdWord) : PortIn := { rst := false, cmdValid := true, cmd := w, resReady := false }

/-- Pins that take a result and offer nothing. -/
def taking : PortIn := { PortIn.pause with resReady := true }

/-- Pins with reset. -/
def resetting : PortIn := { PortIn.pause with rst := true }

/-- The pins that carry the parse transaction of "12" and take its result, with the reference organisation. -/
def parse12Pins : List PortIn :=
  [offering 0x000#10, offering 0x131#10, offering 0x132#10, offering 0x200#10, PortIn.pause, taking]

/-- The same with pauses between. -/
def parse12PinsSlow : List PortIn :=
  [PortIn.pause, offering 0x000#10, offering 0x131#10, PortIn.pause, offering 0x132#10, taking, offering 0x200#10,
   PortIn.pause, PortIn.pause, taking]

/-- A state after reset in which one result waits. -/
def oneWaiting : State := { State.reset with resWaiting := [5#128] }

theorem test_witness_DataFieldOfClrAndRdIgnored : opField 0x0FF#10 = 0b00#2 ∧ opField 0x2FF#10 = 0b10#2 := by decide

theorem test_witness_DecodeAndEncodeAgree : opField 0x000#10 = 0b00#2 ∧ opField 0x1FF#10 = 0b01#2 ∧
    opField 0x200#10 = 0b10#2 ∧ opField 0x3FF#10 = 0b11#2 ∧ Instr.wellFormed (.acc 0xFF#8) = true := by decide

theorem test_witness_ProgramsDecodeToTheirCommands :
    (∀ w, AsmLine.word w ∉ [AsmLine.parse [0x31#8], .rd]) ∧ Instr.wellFormed .rd = true ∧ 10 ≤ 10 := by
  refine ⟨?_, by decide, by decide⟩
  intro w h
  rcases List.mem_cons.1 h with h | h
  · cases h
  · cases List.mem_singleton.1 h

theorem test_witness_ReservedWordHasNoEffect :
    0x300#10 ∈ [0x000#10, 0x300#10] ∧ (decode 0x300#10).wellFormed = false ∧ (decode 0x3FF#10).wellFormed = false ∧
    { State.reset with inFlight := [{ word := 0x3FF#10, left := 4 }] }.inFlight = [{ word := 0x3FF#10, left := 4 }] ∧
    decode 0x3FF#10 = .reserved 0xFF#8 ∧ recovered referenceParams State.reset = true ∧
    Paced referenceParams { State.reset with inFlight := [{ word := 0x3FF#10, left := 0 }] } := by
  decide

theorem test_witness_RdEmitsTotal : State.reset.resWaiting = [] ∧
    ∃ t, exec .clr { State.reset with resWaiting := State.reset.resWaiting ++ [State.reset.total] } = .next t :=
  ⟨rfl, _, rfl⟩

theorem test_witness_DigitSubtractsThenWidens : 0x30 ≤ (0x30#8).toNat ∧ (0x2F#8).toNat < 0x30 := by decide

theorem test_witness_EquivalentForms : 0x30 ≤ (0x30#8).toNat ∧ (0x30#8).toNat ≤ 0x3F ∧ 0x30 ≤ (0x3F#8).toNat ∧
    (0x3F#8).toNat ≤ 0x3F := by decide

theorem test_witness_ByteClasses : trueDigit 0x30#8 = true ∧ trueDigit 0x39#8 = true ∧ (0x00#8).toNat ≤ 0x2F ∧
    (0x2F#8).toNat ≤ 0x2F ∧ 0x3A ≤ (0x3A#8).toNat ∧ 0x3A ≤ (0xFF#8).toNat ∧ trueDigit 0x2F#8 = false ∧
    trueDigit 0x3A#8 = false := by decide

theorem test_witness_MacProperties :
    (0#128 : Total).toNat % 2 ^ 127 = (0x80000000000000000000000000000000#128 : Total).toNat % 2 ^ 127 := by decide

theorem test_witness_DigitStringsReadExactly :
    (∀ b ∈ [0x30#8, 0x39#8], trueDigit b = true) ∧ 2 ^ 128 - 1 < 2 ^ 128 := by decide

theorem test_witness_LargeDigitStringsWrap :
    (∀ b ∈ List.replicate 39 0x39#8, trueDigit b = true) ∧
    2 ^ 128 ≤ Nat.ofDigits 10 ((List.replicate 39 0x39#8).map fun b : Byte => b.toNat - 48).reverse := by
  decide

theorem test_witness_OnlyLastBytesMatter : 128 ≤ (List.replicate 128 0x7A#8).length :=
  List.length_replicate.ge

theorem test_witness_PrefixesAndConcatenation : [0x31#8].Sublist [0x31#8, 0x7A#8] ∧
    [0x7A#8].Sublist [0x31#8, 0x7A#8] ∧ [0x31#8, 0x7A#8].length = [0x31#8].length + [0x7A#8].length := by decide

theorem test_witness_ResetEdgeEmptiesTheCore : resetting.rst = true ∧
    (∀ pin ∈ [PortIn.pause, taking], pin.rst = false ∧ pin.cmdValid = false) ∧
    referenceParams.cmdLatencyMax ≤ [PortIn.pause, taking].length ∧
    ∃ t, edges referenceParams [PortIn.pause, taking] (resetEdge (withTotal 5#128)) = .next t :=
  ⟨rfl, by decide, by decide, _, rfl⟩

theorem test_witness_FirstResetAfterPowerUp :
    resetting.rst = true ∧ (offering 0x200#10).rst = false ∧ (offering 0x200#10).cmdValid = true := by decide

theorem test_witness_ResetAbandonsTransaction : resetting.rst = true ∧
    (∀ q ∈ [PortIn.pause, taking], q.cmdValid = false) ∧
    ∃ t, edges referenceParams [resetting, PortIn.pause, taking] oneWaiting = .next t :=
  ⟨rfl, by decide, _, rfl⟩

theorem test_witness_CommandPortAccepts : (offering 0x137#10).rst = false ∧ State.reset.resetSeen = true ∧
    accepts referenceParams (offering 0x137#10) State.reset = true ∧
    accepts referenceParams PortIn.pause State.reset = false ∧
    (∃ t, edge referenceParams (offering 0x137#10) State.reset = .next t) ∧
    ∃ t, edge referenceParams PortIn.pause State.reset = .next t :=
  ⟨rfl, rfl, by decide, by decide, ⟨_, rfl⟩, _, rfl⟩

theorem test_witness_UnacceptedWordHasNoEffect : PortIn.pause.cmdValid = false ∧ resetting.rst = true ∧
    cmdReady referenceParams false { oneWaiting with
      inFlight := [{ word := 0x200#10, left := 0 }, { word := 0x137#10, left := 0 }] } = false := by decide

theorem test_witness_ResultPortHandsOver : taking.rst = false ∧ oneWaiting.resetSeen = true ∧
    takes taking oneWaiting = true ∧ takes PortIn.pause oneWaiting = false ∧ resValid oneWaiting = true ∧
    (∃ t, edge referenceParams taking oneWaiting = .next t) ∧
    ∃ t, edge referenceParams PortIn.pause oneWaiting = .next t :=
  ⟨rfl, rfl, by decide, by decide, by decide, ⟨_, rfl⟩, _, rfl⟩

theorem test_witness_AcceptanceAndTransferIndependent : (offering 0x137#10).rst = false ∧
    oneWaiting.resetSeen = true ∧
    (∃ t, edge referenceParams { offering 0x137#10 with cmdValid := true } oneWaiting = .next t) ∧
    (∃ t, edge referenceParams { offering 0x137#10 with cmdValid := false } oneWaiting = .next t) ∧
    (∃ t, edge referenceParams { offering 0x137#10 with resReady := true } oneWaiting = .next t) ∧
    ∃ t, edge referenceParams { offering 0x137#10 with resReady := false } oneWaiting = .next t :=
  ⟨rfl, rfl, ⟨_, rfl⟩, ⟨_, rfl⟩, ⟨_, rfl⟩, _, rfl⟩

theorem test_witness_IdleCoreHoldsTotal : PortIn.pause.rst = false ∧ PortIn.pause.cmdValid = false ∧
    PortIn.pause.resReady = false ∧ oneWaiting.resetSeen = true ∧ oneWaiting.inFlight = [] := by decide

theorem test_witness_StepRunsTheDecodedCommand :
    (oneWaiting.withFetchWord 10 0x200).resetSeen = true ∧
    (nextPins (oneWaiting.withFetchWord 10 0x200)).rst = false ∧
    (oneWaiting.withFetchWord 10 0x200).inFlight = [{ word := 0x200#10, left := 0 }] ∧
    stageHolds Config.params { word := 0x200#10, left := 0 } (oneWaiting.withFetchWord 10 0x200) = false ∧ decode 0x200#10 = .rd ∧
    (takeResult (nextPins (oneWaiting.withFetchWord 10 0x200))
      (oneWaiting.withFetchWord 10 0x200).dropPins).resWaiting.length < Config.params.resDepth :=
  ⟨rfl, rfl, rfl, rfl, by decide, Nat.succ_pos _⟩

theorem test_witness_StepKeepsHiddenStateBounded :
    Bounded Config.params State.reset ∧ ∃ s', step State.reset = .next s' :=
  ⟨⟨Nat.zero_le _, Nat.zero_le _, fun _ h => absurd h List.not_mem_nil⟩, _, rfl⟩

/-- A state in which a command has been accepted and executed, and an `RD` is in flight. -/
def midRun : State :=
  { State.reset with total := 7#128, inFlight := [{ word := 0x200#10, left := 0 }], accepted := [0x137#10, 0x200#10] }

theorem test_witness_StepKeepsAcceptanceOrder : InOrder 0#128 midRun ∧ ∃ s', step midRun = .next s' :=
  ⟨by decide, _, rfl⟩

theorem test_witness_EdgeKeepsAcceptanceOrder : InOrder 0#128 midRun ∧
    (∃ s', edge referenceParams (offering 0x131#10) midRun = .next s') ∧
    ∃ s', edge referenceParams resetting midRun = .next s' :=
  ⟨by decide, ⟨_, rfl⟩, _, rfl⟩

theorem test_witness_FinishedRunIsTheFold : State.reset.clean = true ∧ (∀ pin ∈ parse12Pins, pin.rst = false) ∧
    ∃ t, edges referenceParams parse12Pins State.reset = .next t ∧ t.over = true :=
  ⟨by decide, by decide, _, rfl, by decide⟩

theorem test_witness_ParseOnThePorts : (withTotal 99#128).clean = true ∧ (∀ pin ∈ parse12Pins, pin.rst = false) ∧
    ∃ t, edges referenceParams parse12Pins (withTotal 99#128) = .next t ∧ t.over = true ∧
      t.accepted = (withTotal 99#128).accepted ++ transactionWords [0x31#8, 0x32#8] ∧ t.taken = [12#128] :=
  ⟨by decide, by decide, _, rfl, by decide, by decide, by decide⟩

theorem test_witness_FramedUseParsesEveryString : (withTotal 99#128).clean = true ∧
    (∀ pin ∈ parse12Pins, pin.rst = false) ∧
    (∃ t, edges referenceParams parse12Pins (withTotal 99#128) = .next t ∧ t.over = true ∧
      t.accepted = (withTotal 99#128).accepted ++ transactionWords [0x31#8, 0x32#8]) ∧
    framed false (commands (transactionWords [0x31#8, 0x32#8])) = true :=
  ⟨by decide, by decide, ⟨_, rfl, by decide, by decide⟩, by decide⟩

theorem test_witness_TimingHasNoInfluence :
    (∃ t t', edges referenceParams parse12Pins (withTotal 99#128) = .next t ∧
      edges referenceParams parse12PinsSlow (withTotal 1#128) = .next t' ∧
      t.over = true ∧ t'.over = true ∧
      t.accepted = [] ++ transactionWords [0x31#8, 0x32#8] ∧ t'.accepted = [] ++ transactionWords [0x31#8, 0x32#8]) ∧
    (∀ pin ∈ parse12Pins, pin.rst = false) ∧ (∀ pin ∈ parse12PinsSlow, pin.rst = false) ∧
    (withTotal 99#128).clean = true ∧ (withTotal 1#128).clean = true ∧
    (commands (transactionWords [0x31#8, 0x32#8])).head? = some .clr ∧ (withTotal 1#128).total = (1#128 : Total) :=
  ⟨⟨_, _, rfl, rfl, by decide, by decide, by decide, by decide⟩, by decide, by decide,
    by decide, by decide, by decide, rfl⟩

theorem test_witness_NeverStopsAfterReset : State.reset.resetSeen = true := rfl

theorem test_witness_CommandsCompleteInTime : midRun.resetSeen = true ∧ OnTime referenceParams midRun ∧
    (∀ pin ∈ [taking, taking], pin.rst = false ∧ pin.resReady = true) ∧
    referenceParams.cmdLatencyMax ≤ [taking, taking].length ∧
    ∃ t, edges referenceParams [taking, taking] midRun = .next t :=
  ⟨rfl, by decide, by decide, by decide, _, rfl⟩

theorem test_witness_OfferedCommandIsAccepted : midRun.resetSeen = true ∧ Paced referenceParams midRun ∧
    ∃ t, edges referenceParams (List.replicate (referenceParams.cmdLatencyMax + 1)
      { rst := false, cmdValid := true, cmd := 0x131#10, resReady := true }) midRun = .next t :=
  ⟨rfl, by decide, _, rfl⟩

theorem test_witness_DutifulHostIsAdmitted : hostKeepsDuties referenceParams parse12Pins State.reset = true ∧
    ∃ t, edges referenceParams parse12Pins State.reset = .next t :=
  ⟨by decide, _, rfl⟩

theorem test_witness_ReferenceTraceOfParse12 :
    ∃ t u, edges referenceParams
      [{ rst := true, cmdValid := true, cmd := 0x3FF#10, resReady := true },
       { rst := false, cmdValid := true, cmd := 0x000#10, resReady := false },
       { rst := false, cmdValid := true, cmd := 0x131#10, resReady := false },
       { rst := false, cmdValid := true, cmd := 0x132#10, resReady := false },
       { rst := false, cmdValid := true, cmd := 0x200#10, resReady := true },
       { rst := false, cmdValid := false, cmd := 0x3FF#10, resReady := true }] oneWaiting = .next t ∧
      edge referenceParams { rst := false, cmdValid := false, cmd := 0x3FF#10, resReady := true } t = .next u :=
  ⟨_, _, rfl, rfl⟩

/-- The parameters of a core with one stage, a bound of three edges and a stage that asks for as many as it may have. -/
def slowParams : Params :=
  { referenceParams with pipeStagesMinusOne := 0, cmdLatencyMaxMinusOne := 2, stageBusy := fun _ _ => true }

theorem test_witness_EdgeKeepsCommandsOnTime : taking.resReady = true ∧ resetting.rst = true ∧
    OnTime referenceParams midRun ∧ (∃ t, edge referenceParams taking midRun = .next t) ∧
    ∃ t, edge referenceParams resetting midRun = .next t :=
  ⟨rfl, rfl, by decide, ⟨_, rfl⟩, _, rfl⟩

theorem test_witness_TransactionCompletesInTime : (withTotal 99#128).clean = true ∧
    cmdReady slowParams false (withTotal 99#128) = true ∧ ([0x31#8].length + 2) * slowParams.cmdLatencyMax ≤ 9 := by
  decide

/-- The pipeline of one stage takes a command at the edge at which it completes one, so that three commands take no
more than three times the bound (70_reset_and_hazards.md R146), and no less when the stage asks for all of it. -/
theorem test_one_stage_meets_latency :
    (match offerAll slowParams 10 (transactionWords [0x31#8]) (withTotal 99#128) with
      | .next t => some (t.inFlight, t.total, t.resWaiting)
      | .fault _ => none
      | .refused _ => none) = some ([], 1#128, [1#128]) ∧
    (match offerAll slowParams 9 (transactionWords [0x31#8]) (withTotal 99#128) with
      | .next t => some t.inFlight
      | .fault _ => none
      | .refused _ => none) = some [{ word := 0x200#10, left := 0 }] := by
  decide

/-- A reserved word leaves the one stage at the next edge, whatever the stage asks (30_encoding.md R66). -/
theorem test_reserved_holds_nothing :
    (match edges slowParams [offering 0x3FF#10, PortIn.pause] State.reset with
      | .next t => some t.inFlight
      | .fault _ => none
      | .refused _ => none) = some [] ∧
    (match edges slowParams [offering 0x131#10, PortIn.pause] State.reset with
      | .next t => some t.inFlight.length
      | .fault _ => none
      | .refused _ => none) = some 1 := by
  decide

/-- The parameters of a core with three stages and a bound of one edge. -/
def shortParams : Params := { referenceParams with pipeStagesMinusOne := 2 }

/-- A state with a full result port, an `RD` and a command behind it. -/
def piledUp : State :=
  { oneWaiting with inFlight := [{ word := 0x200#10, left := 0 }, { word := 0x131#10, left := 0 }] }

theorem test_witness_HoldsAreComplete : Paced shortParams piledUp ∧
    shortParams.cmdLatencyMax < piledUp.inFlight.length ∧
    stageHolds slowParams { word := 0x131#10, left := 1 } State.reset = true := by decide

theorem test_witness_EdgeKeepsPace : Paced shortParams piledUp ∧
    (∃ t, edge shortParams (offering 0x132#10) piledUp = .next t) ∧
    ∃ t, edge shortParams resetting piledUp = .next t :=
  ⟨by decide, ⟨_, rfl⟩, _, rfl⟩

/-- Pins that offer a word and take a result. -/
def offeringAndTaking (w : CmdWord) : PortIn := { offering w with resReady := true }

theorem test_witness_AcceptedCommandCompletesInTime :
    ({ piledUp with inFlight := piledUp.inFlight.tail } : State).resetSeen = true ∧
    Paced shortParams { piledUp with inFlight := piledUp.inFlight.tail } ∧
    accepts shortParams (offeringAndTaking 0x132#10) { piledUp with inFlight := piledUp.inFlight.tail } = true ∧
    (∀ q ∈ [offeringAndTaking 0x132#10, taking], q.rst = false ∧ q.resReady = true) ∧
    shortParams.cmdLatencyMax ≤ [taking].length ∧
    ∃ t u, edge shortParams (offeringAndTaking 0x132#10) { piledUp with inFlight := piledUp.inFlight.tail } = .next t ∧
      edges shortParams [taking] t = .next u :=
  ⟨by decide, by decide, by decide, by decide, by decide, _, _, rfl, rfl⟩

/-- Three stages and a bound of one edge (70_reset_and_hazards.md R146): what is accepted after a stall completes one
edge later, and while the commands of the stall drain the offer waits. -/
theorem test_command_after_stall_meets_latency :
    cmdReady shortParams false piledUp = false ∧
    (match edges shortParams [offeringAndTaking 0x132#10, offeringAndTaking 0x132#10] piledUp with
      | .next t => some (t.accepted, t.inFlight)
      | .fault _ => none
      | .refused _ => none) = some ([0x132#10], [{ word := 0x132#10, left := 0 }]) := by
  decide
end

/-! PROOFS. The step of one command (00_scope.md R11) and the independence of the results from time, parameters and
history (00_scope.md R12). The idea of the second: `State.foreseen` is what a run will have computed once the pipeline
has drained. Result transfers and completions leave it alone, an acceptance extends it by the accepted command, and in
a state with nothing in flight and nothing waiting it is what stands in `total` and has been taken. -/

namespace Sys2Proof.Machine

open Sys2Proof.Config (Params)

/-- Settles O20, by cases over the commands. -/
theorem everyCommandCompletes : Obligations.EveryCommandCompletes := by
  unfold Obligations.EveryCommandCompletes
  intro i s
  cases i with
  | clr => simp [exec, execClr, State.setTotal, commandStep]
  | acc b => simp [exec, execAcc, State.setTotal, commandStep]
  | rd => simp [exec, execRd, State.emit, commandStep]
  | reserved data => simp [exec, execReserved, commandStep]

/-- The part of a command's step that the ordering of commands and results is about. -/
theorem exec_next_fields {i : Instr} {s t : State} (h : exec i s = .next t) :
    t.total = (commandStep s.total i).1 ∧ t.resWaiting = s.resWaiting ++ (commandStep s.total i).2.toList ∧
    t.inFlight = s.inFlight ∧ t.taken = s.taken ∧ t.accepted = s.accepted := by
  rw [everyCommandCompletes i s] at h
  cases h
  exact ⟨rfl, rfl, rfl, rfl, rfl⟩

/-- What the commands `cs` make of an accumulator value and the results so far. -/
def runAfter (o : Total × List Total) (cs : List Instr) : Total × List Total :=
  ((run o.1 cs).1, o.2 ++ (run o.1 cs).2)

@[simp] theorem runAfter_nil (o : Total × List Total) : runAfter o [] = o := by
  simp [runAfter, run]

theorem runAfter_cons (o : Total × List Total) (c : Instr) (cs : List Instr) :
    runAfter o (c :: cs) = runAfter ((commandStep o.1 c).1, o.2 ++ (commandStep o.1 c).2.toList) cs := by
  simp [runAfter, run]

theorem runAfter_append (o : Total × List Total) (cs ds : List Instr) :
    runAfter o (cs ++ ds) = runAfter (runAfter o cs) ds := by
  induction cs generalizing o with
  | nil => simp
  | cons c cs ih => simp only [List.cons_append, runAfter_cons, ih]

/-- A leading `CLR` makes the run forget its start value (43_transactions.md R115). -/
theorem run_eq_of_head_clr {cs : List Instr} (h : cs.head? = some .clr) (t t' : Total) : run t cs = run t' cs := by
  cases cs with
  | nil => cases h
  | cons c cs =>
    obtain rfl : c = .clr := Option.some.inj h
    rfl

/-- The `total` and the results since the last reset once every command in flight has completed and every result has
been taken. -/
def State.foreseen (s : State) : Total × List Total :=
  runAfter (s.total, s.taken ++ s.resWaiting) (commands (s.inFlight.map (·.word)))

/-- `foreseen` in the terms of `InOrder`: that invariant says that the accepted commands run to what is foreseen. -/
theorem foreseen_eq_pendingRun (s : State) :
    s.foreseen = ((pendingRun s).1, s.taken ++ s.resWaiting ++ (pendingRun s).2) := rfl

@[simp] theorem foreseen_tick (s : State) : s.tick.foreseen = s.foreseen := rfl

theorem foreseen_of_drained {s : State} (hq : s.inFlight = []) (hw : s.resWaiting = []) :
    s.foreseen = (s.total, s.taken) := by
  simp [State.foreseen, commands, hq, hw]

theorem foreseen_of_clean {s : State} (h : s.clean = true) : s.foreseen = (s.total, s.taken) := by
  obtain ⟨-, hq, hw⟩ : s.resetSeen = true ∧ s.inFlight = [] ∧ s.resWaiting = [] := by simpa [State.clean] using h
  exact foreseen_of_drained hq hw

theorem foreseen_of_over {s : State} (h : s.over = true) : s.foreseen = (s.total, s.taken) := by
  obtain ⟨hq, hw⟩ : s.inFlight = [] ∧ s.resWaiting = [] := by simpa [State.over] using h
  exact foreseen_of_drained hq hw

theorem takeResult_foreseen (pin : PortIn) (s : State) : (takeResult pin s).foreseen = s.foreseen := by
  obtain ⟨htotal, hq, -, -, -, -, -, hresults⟩ := takeResult_frame pin s
  rw [State.foreseen, htotal, hq, hresults, State.foreseen]

/-- A command that stays in the pipeline only ages, and one that completes does what was foreseen of it. -/
theorem executeOldest_foreseen {p : Params} {s t : State} (h : executeOldest p s = .next t) :
    t.foreseen = s.foreseen ∧ t.accepted = s.accepted := by
  rcases executeOldest_cases h with ⟨-, rfl⟩ | ⟨c, rest, hq, -, rfl⟩ | ⟨c, rest, hq, -, -, hexec⟩
  · exact ⟨rfl, rfl⟩
  · simp [State.foreseen, hq]
  · obtain ⟨htotal, hwaiting, hflight, htaken, haccepted⟩ := exec_next_fields hexec
    refine ⟨?_, haccepted⟩
    simp [State.foreseen, commands, runAfter_cons, htotal, hwaiting, hflight, htaken, hq]

theorem pushCommand_foreseen (p : Params) (w : CmdWord) (s : State) :
    (pushCommand p w s).foreseen = runAfter s.foreseen (commands [w]) := by
  simp [State.foreseen, commands, runAfter_append]

theorem acceptCommand_foreseen (p : Params) (pin : PortIn) (before s : State) :
    ∃ ws, (acceptCommand p pin before s).accepted = s.accepted ++ ws ∧
      (acceptCommand p pin before s).foreseen = runAfter s.foreseen (commands ws) := by
  rcases acceptCommand_cases p pin before s with ⟨-, h⟩ | ⟨-, h⟩
  · exact ⟨[], by simp [h, commands]⟩
  · exact ⟨[pin.cmd], by rw [h]; exact ⟨rfl, pushCommand_foreseen p pin.cmd s⟩⟩

/-- An edge without reset changes what is foreseen only by the commands it accepts (20_memory.md R45). -/
theorem edge_foreseen {p : Params} {pin : PortIn} {s t : State} (hrst : pin.rst = false)
    (h : edge p pin s = .next t) :
    ∃ ws, t.accepted = s.accepted ++ ws ∧ t.foreseen = runAfter s.foreseen (commands ws) := by
  rcases edge_cases h with ⟨hreset, -⟩ | ⟨-, -, u, hexec, rfl⟩ | ⟨-, -, -, rfl⟩
  · simp [hrst] at hreset
  · obtain ⟨hforeseen, haccepted⟩ := executeOldest_foreseen hexec
    obtain ⟨-, -, -, -, -, htake, -, -⟩ := takeResult_frame pin s
    have haccept := acceptCommand_foreseen p pin s u
    rwa [hforeseen, takeResult_foreseen, haccepted, htake] at haccept
  · exact ⟨[], by simp [commands]⟩

theorem edges_foreseen {p : Params} {pins : List PortIn} {s t : State} (hrst : ∀ pin ∈ pins, pin.rst = false)
    (h : edges p pins s = .next t) :
    ∃ ws, t.accepted = s.accepted ++ ws ∧ t.foreseen = runAfter s.foreseen (commands ws) := by
  induction pins generalizing s with
  | nil =>
    cases h
    exact ⟨[], by simp [commands]⟩
  | cons pin pins ih =>
    obtain ⟨u, hedge, hedges⟩ := edges_cons h
    obtain ⟨hpin, hpins⟩ := List.forall_mem_cons.mp hrst
    obtain ⟨ws, hws, hu⟩ := edge_foreseen hpin hedge
    obtain ⟨vs, hvs, ht⟩ := ih hpins hedges
    refine ⟨ws ++ vs, by rw [hvs, hws, List.append_assoc], ?_⟩
    rw [ht, hu, ← runAfter_append, commands, commands, commands, List.map_append]

/-- A finished run from a clean state has computed the transaction level's run of the words it accepted
(70_reset_and_hazards.md R153, R154). -/
theorem finishedRun_eq_runAfter {p : Params} {pins : List PortIn} {s t : State} {ws : List CmdWord}
    (hclean : s.clean = true) (hrst : ∀ pin ∈ pins, pin.rst = false) (h : edges p pins s = .next t)
    (hover : t.over = true) (hws : t.accepted = s.accepted ++ ws) :
    (t.total, t.taken) = runAfter (s.total, s.taken) (commands ws) := by
  obtain ⟨vs, hvs, hforeseen⟩ := edges_foreseen hrst h
  obtain rfl : vs = ws := List.append_cancel_left (hvs.symm.trans hws)
  rwa [foreseen_of_over hover, foreseen_of_clean hclean] at hforeseen

/-- Settles O50: each run is the fold of the same commands, and the two folds agree. -/
theorem timingHasNoInfluence : Obligations.TimingHasNoInfluence := by
  unfold Obligations.TimingHasNoInfluence
  intro p p' pins pins' s s' t t' ws hs hs' hpins hpins' hrun hrun' hover hover' hws hws' hstart
  have hfold := finishedRun_eq_runAfter hs hpins hrun hover hws
  have hfold' := finishedRun_eq_runAfter hs' hpins' hrun' hover' hws'
  have hsame : run s.total (commands ws) = run s'.total (commands ws) := by
    rcases hstart with heq | hclr
    · rw [heq]
    · exact run_eq_of_head_clr hclr _ _
  rw [runAfter, hsame] at hfold
  obtain ⟨htotal, htaken⟩ := Prod.mk.inj hfold
  obtain ⟨htotal', htaken'⟩ := Prod.mk.inj hfold'
  exact ⟨htotal.trans htotal'.symm, _, htaken, htaken'⟩

end Sys2Proof.Machine

/-! PROOFS. The state of the CORE (10_state.md): what reset leaves, what an idle core holds, which values `total` can
reach, and the bounds of the hidden state. The idea of the last: the three port actions of an edge keep the bounds one
by one, and a command joins the pipeline only at an edge after whose accumulator stage there is a free place. -/

namespace Sys2Proof.Machine

open Sys2Proof.Config (Params)

-- Reset (10_state.md R29)

theorem cmdReady_of_rst (p : Params) (s : State) : cmdReady p true s = false := rfl

/-- Settles O32, by the fields of the reset state. -/
theorem resetState : Obligations.ResetState := by
  unfold Obligations.ResetState
  exact ⟨rfl, rfl, rfl, rfl, fun p => cmdReady_of_rst p State.reset, rfl⟩

theorem bounded_of_empty {s : State} (hq : s.inFlight = []) (hw : s.resWaiting = []) (p : Params) : Bounded p s := by
  simp [Bounded, hq, hw]

theorem paced_of_empty {s : State} (hq : s.inFlight = []) (hw : s.resWaiting = []) (p : Params) : Paced p s :=
  ⟨bounded_of_empty hq hw p, by simp [hq], by simp [backlogHeldByRd, hq]⟩

theorem onTime_of_empty {s : State} (hq : s.inFlight = []) (hw : s.resWaiting = []) (p : Params) : OnTime p s :=
  ⟨paced_of_empty hq hw p, by simp [hq]⟩

/-- Where nothing has been accepted, taken or left over, the order starts at the present `total`. -/
theorem inOrder_of_fresh {s : State} (ha : s.accepted = []) (ht : s.taken = []) (hq : s.inFlight = [])
    (hw : s.resWaiting = []) : InOrder s.total s := by
  simp [InOrder, pendingRun, commands, run, ha, ht, hq, hw]

/-- Settles O46: the reset state is empty and has no history. -/
theorem invariantsHoldAtReset : Obligations.InvariantsHoldAtReset := by
  unfold Obligations.InvariantsHoldAtReset
  exact ⟨fun p => ⟨bounded_of_empty rfl rfl p, paced_of_empty rfl rfl p, onTime_of_empty rfl rfl p⟩,
    inOrder_of_fresh (s := State.reset) rfl rfl rfl rfl⟩

-- A pausing host (10_state.md R20)

theorem takeResult_of_not_resReady {pin : PortIn} (h : pin.resReady = false) (s : State) : takeResult pin s = s := by
  simp [takeResult, takes, h]

theorem executeOldest_of_nothing_inFlight (p : Params) {s : State} (h : s.inFlight = []) :
    executeOldest p s = .next s := by
  simp [executeOldest, h]

theorem acceptCommand_of_not_cmdValid {pin : PortIn} (h : pin.cmdValid = false) (p : Params) (before s : State) :
    acceptCommand p pin before s = s := by
  simp [acceptCommand, accepts, h]

/-- Settles O41: none of the three port actions has anything to do, so that only the tick is left. -/
theorem idleCoreHoldsTotal : Obligations.IdleCoreHoldsTotal := by
  unfold Obligations.IdleCoreHoldsTotal
  intro p pin s hrst hvalid hready hseen hempty
  simp [edge, hrst, hseen, takeResult_of_not_resReady hready, executeOldest_of_nothing_inFlight p hempty,
    acceptCommand_of_not_cmdValid hvalid, State.tick]

-- The values of `total` (10_state.md R22)

/-- The byte that spells a decimal digit. -/
def digitByte (d : Nat) : Byte := BitVec.ofNat 8 (48 + d)

theorem digitByte_toNat {d : Nat} (h : d < 10) : (digitByte d).toNat = 48 + d := by
  rw [digitByte, BitVec.toNat_ofNat, Nat.mod_eq_of_lt (by omega)]

theorem trueDigit_digitByte {d : Nat} (h : d < 10) : trueDigit (digitByte d) = true := by
  rw [trueDigit, digitByte_toNat h]
  exact decide_eq_true (by omega)

theorem digit8_digitByte {d : Nat} (h : d < 10) : (digit8 (digitByte d)).toNat = d := by
  rw [digit8_toNat, digitByte_toNat h]
  omega

theorem mac_digitByte (n : Nat) {d : Nat} (h : d < 10) :
    mac (BitVec.ofNat 128 n) (digitByte d) = BitVec.ofNat 128 (10 * n + d) := by
  apply BitVec.eq_of_toNat_eq
  simp [mac_toNat, digit8_digitByte h, Nat.add_mod, Nat.mul_mod]

theorem parse_concat (s : List Byte) (b : Byte) : parse (s ++ [b]) = mac (parse s) b := by
  simp [parse]

/-- A number below 10^k is spelt by k digit bytes, the last of which is its last digit. -/
theorem exists_digits_parse (k n : Nat) (h : n < 10 ^ k) :
    ∃ s : List Byte, s.length = k ∧ (∀ b ∈ s, trueDigit b = true) ∧ parse s = BitVec.ofNat 128 n := by
  induction k generalizing n with
  | zero =>
    obtain rfl : n = 0 := by omega
    exact ⟨[], rfl, by simp, rfl⟩
  | succ k ih =>
    obtain ⟨s, hlength, hdigits, hparse⟩ := ih (n / 10) (by omega)
    have hlast : n % 10 < 10 := Nat.mod_lt n (by omega)
    refine ⟨s ++ [digitByte (n % 10)], by simp [hlength], ?_, ?_⟩
    · simpa [or_imp, forall_and, trueDigit_digitByte hlast] using hdigits
    · rw [parse_concat, hparse, mac_digitByte _ hlast, Nat.div_add_mod]

theorem run_map_acc (t : Total) (s : List Byte) : run t (s.map .acc) = (s.foldl mac t, []) := by
  induction s generalizing t with
  | nil => rfl
  | cons b s ih => simp [run, commandStep, ih]

/-- `CLR` and then one `ACC` for each byte compute `parse` from every start (43_transactions.md R105). -/
theorem run_clr_map_acc (t : Total) (s : List Byte) : run t (.clr :: s.map .acc) = (parse s, []) := by
  simp [run, commandStep, run_map_acc, parse]

/-- Settles O30: 2^128 is below 10^39, so 39 digits spell every value. -/
theorem everyTotalReachable : Obligations.EveryTotalReachable := by
  unfold Obligations.EveryTotalReachable
  intro v
  have hv : v.toNat < 10 ^ 39 := lt_trans v.isLt (by norm_num)
  obtain ⟨s, hlength, hdigits, hparse⟩ := exists_digits_parse 39 v.toNat hv
  rw [BitVec.ofNat_toNat, BitVec.setWidth_eq] at hparse
  exact ⟨s, hlength, hdigits, hparse, fun t => by rw [run_clr_map_acc, hparse]⟩

-- The bounds of the hidden state (10_state.md R26)

theorem ageAll_left_lt {q : List InFlight} {n : Nat} (h : ∀ c ∈ q, c.left < n) : ∀ c ∈ ageAll q, c.left < n := by
  intro c hc
  obtain ⟨d, hd, rfl⟩ := List.mem_map.mp hc
  exact lt_of_le_of_lt (Nat.sub_le d.left 1) (h d hd)

theorem takeResult_resWaiting_length_le (pin : PortIn) (s : State) :
    (takeResult pin s).resWaiting.length ≤ s.resWaiting.length := by
  rcases takeResult_cases pin s with ⟨-, h⟩ | ⟨v, rest, -, hw, h⟩
  · simp [h]
  · simp [h, hw]

theorem takeResult_bounded {p : Params} {s : State} (pin : PortIn) (h : Bounded p s) :
    Bounded p (takeResult pin s) := by
  obtain ⟨hpipe, hres, hleft⟩ := h
  obtain ⟨-, hq, -⟩ := takeResult_frame pin s
  exact ⟨hq ▸ hpipe, (takeResult_resWaiting_length_le pin s).trans hres, hq ▸ hleft⟩

/-- A command that does not stall finds room for what it emits. -/
theorem emitted_fits {p : Params} {i : Instr} {s : State} (hres : s.resWaiting.length ≤ p.resDepth)
    (h : stalls p i s = false) :
    (s.resWaiting ++ (commandStep s.total i).2.toList).length ≤ p.resDepth := by
  cases i with
  | clr => simpa [commandStep] using hres
  | acc b => simpa [commandStep] using hres
  | rd =>
    have hroom : s.resWaiting.length < p.resDepth := by
      rwa [stalls, ← Bool.not_eq_true, resultPortFull_iff, not_le] at h
    simpa [commandStep] using hroom
  | reserved data => simpa [commandStep] using hres

theorem executeOldest_bounded {p : Params} {s t : State} (hs : Bounded p s) (h : executeOldest p s = .next t) :
    Bounded p t := by
  obtain ⟨hpipe, hres, hleft⟩ := hs
  rcases executeOldest_cases h with ⟨-, rfl⟩ | ⟨c, rest, hq, -, rfl⟩ | ⟨c, rest, hq, -, hstall, hexec⟩
  · exact ⟨hpipe, hres, hleft⟩
  · rw [hq] at hpipe hleft
    exact ⟨by simpa using hpipe, hres, ageAll_left_lt hleft⟩
  · rw [hq] at hpipe hleft
    obtain ⟨-, hwaiting, hflight, -, -⟩ := exec_next_fields hexec
    refine ⟨?_, hwaiting ▸ emitted_fits hres hstall, ?_⟩
    · simpa [hflight] using Nat.le_of_succ_le hpipe
    · rw [hflight]
      exact ageAll_left_lt (List.forall_mem_cons.mp hleft).2

theorem executeOldest_inFlight_length_le {p : Params} {s t : State} (h : executeOldest p s = .next t) :
    t.inFlight.length ≤ s.inFlight.length := by
  rcases executeOldest_cases h with ⟨-, rfl⟩ | ⟨c, rest, hq, -, rfl⟩ | ⟨c, rest, hq, -, -, hexec⟩
  · exact le_rfl
  · simp [hq]
  · obtain ⟨-, -, hflight, -, -⟩ := exec_next_fields hexec
    simp [hflight, hq]

/-- Where a command is accepted, the accumulator stage leaves a free place in the pipeline: one was free before, or
the oldest command has completed at this edge. -/
theorem accepted_command_has_place {p : Params} {pin : PortIn} {s u : State}
    (hpipe : s.inFlight.length ≤ p.pipeStages) (haccepts : accepts p pin s = true)
    (h : executeOldest p (takeResult pin s) = .next u) : u.inFlight.length < p.pipeStages := by
  obtain ⟨-, -, -, -, hroom | hcompletes⟩ := accepts_iff.mp haccepts
  · obtain ⟨-, hq, -⟩ := takeResult_frame pin s
    have hle := executeOldest_inFlight_length_le h
    rw [hq] at hle
    exact hle.trans_lt (pipelineHasRoom_iff.mp hroom)
  · obtain ⟨c, rest, hq, hexec⟩ := oldestCompletes_executes (pin := pin) hcompletes
    obtain ⟨-, -, hflight, -, -⟩ := exec_next_fields (hexec.symm.trans h)
    simpa [hflight, hq] using hpipe

theorem pushCommand_bounded {p : Params} {s : State} (w : CmdWord) (h : Bounded p s)
    (hplace : s.inFlight.length < p.pipeStages) : Bounded p (pushCommand p w s) := by
  obtain ⟨-, hres, hleft⟩ := h
  refine ⟨by simpa using hplace, hres, ?_⟩
  simpa [or_imp, forall_and, Params.cmdLatencyMax] using hleft

/-- Every edge keeps the bounds, whatever the parameters and the pins are. -/
theorem edge_bounded {p : Params} {pin : PortIn} {s t : State} (hs : Bounded p s) (h : edge p pin s = .next t) :
    Bounded p t := by
  rcases edge_cases h with ⟨-, rfl⟩ | ⟨-, -, u, hexec, rfl⟩ | ⟨-, -, -, rfl⟩
  · exact bounded_of_empty (resetEdge_inFlight s) (resetEdge_resWaiting s) p
  · have hu : Bounded p u := executeOldest_bounded (takeResult_bounded pin hs) hexec
    rcases acceptCommand_cases p pin s u with ⟨-, haccept⟩ | ⟨haccepts, haccept⟩
    · rw [haccept]
      exact hu
    · rw [haccept]
      exact pushCommand_bounded pin.cmd hu (accepted_command_has_place hs.1 haccepts hexec)
  · exact hs

/-- Settles O43: a step is an edge at the parameters of Config. -/
theorem stepKeepsHiddenStateBounded : Obligations.StepKeepsHiddenStateBounded := by
  unfold Obligations.StepKeepsHiddenStateBounded
  intro s s' hs hstep
  have hdrop : Bounded Config.params s.dropPins := hs
  exact edge_bounded hdrop hstep

end Sys2Proof.Machine

/-! PROOFS. The ordering model and the two handshakes (20_memory.md R45, R48, R49). The idea of the first: `InOrder`
says that what a state foresees is the run of its accepted commands, and an edge extends both by the same commands. The
other three follow an edge through its three port actions: the transfer hands over the head of the waiting results, the
accumulator stage works at the head of the pipeline and at the end of the results, and the acceptance adds to the end of
the pipeline. -/

namespace Sys2Proof.Machine

open Sys2Proof.Config (Params)

-- The ordering model (20_memory.md R45)

/-- The ordering model as a fact about what is foreseen. -/
theorem inOrder_iff_foreseen {t : Total} {s : State} :
    InOrder t s ↔ s.foreseen = runAfter (t, []) (commands s.accepted) := by
  rw [foreseen_eq_pendingRun, runAfter, List.nil_append]
  exact eq_comm

theorem edge_inOrder {p : Params} {pin : PortIn} {t : Total} {s s' : State} (hrst : pin.rst = false)
    (hs : InOrder t s) (h : edge p pin s = .next s') : InOrder t s' := by
  obtain ⟨ws, haccepted, hforeseen⟩ := edge_foreseen hrst h
  rw [inOrder_iff_foreseen] at hs ⊢
  rw [hforeseen, hs, ← runAfter_append, haccepted, commands, commands, commands, List.map_append]

theorem edge_of_rst {pin : PortIn} (hrst : pin.rst = true) (p : Params) (s : State) :
    edge p pin s = .next (resetEdge s) := by
  simp [edge, hrst]

/-- Reset starts the order anew at its own value of `total` (10_state.md R29). -/
theorem resetEdge_inOrder (s : State) : InOrder Config.resetTotal (resetEdge s) :=
  inOrder_of_fresh (s := resetEdge s) rfl rfl rfl rfl

/-- Settles O45, by cases over `rst`. -/
theorem edgeKeepsAcceptanceOrder : Obligations.EdgeKeepsAcceptanceOrder := by
  unfold Obligations.EdgeKeepsAcceptanceOrder
  intro p pin t s s' hs h
  cases hrst : pin.rst with
  | false => exact edge_inOrder hrst hs h
  | true =>
    obtain rfl : resetEdge s = s' := Host.Outcome.next.inj ((edge_of_rst hrst p s).symm.trans h)
    exact resetEdge_inOrder s

/-- Settles O44: a step is an edge at the parameters of Config, and with the start value 0 a reset makes no
difference. -/
theorem stepKeepsAcceptanceOrder : Obligations.StepKeepsAcceptanceOrder := by
  unfold Obligations.StepKeepsAcceptanceOrder
  intro s s' hs hstep
  have hdrop : InOrder 0#128 s.dropPins := hs
  have hedge := edgeKeepsAcceptanceOrder Config.params (nextPins s) 0#128 s.dropPins s' hdrop hstep
  rwa [ite_self] at hedge

-- The command port (20_memory.md R48)

theorem rst_of_cmdReady {p : Params} {rst : Bool} {s : State} (h : cmdReady p rst s = true) : rst = false := by
  cases rst with
  | false => rfl
  | true => simp [cmdReady_of_rst] at h

/-- At an edge without reset, once a reset has been seen, the three port actions happen. -/
theorem edge_next_parts {p : Params} {pin : PortIn} {s t : State} (hrst : pin.rst = false)
    (hseen : s.resetSeen = true) (h : edge p pin s = .next t) :
    ∃ u, executeOldest p (takeResult pin s) = .next u ∧ t = (acceptCommand p pin s u).tick := by
  rcases edge_cases h with ⟨hreset, -⟩ | ⟨-, -, hparts⟩ | ⟨-, hunseen, -⟩
  · simp [hrst] at hreset
  · exact hparts
  · simp [hseen] at hunseen

/-- Each command in flight ages by an edge, but for the oldest where it completes. -/
theorem executeOldest_inFlight {p : Params} {s t : State} (h : executeOldest p s = .next t) :
    t.inFlight = ageAll s.inFlight ∨ t.inFlight = ageAll s.inFlight.tail := by
  rcases executeOldest_cases h with ⟨hq, rfl⟩ | ⟨c, rest, hq, -, rfl⟩ | ⟨c, rest, hq, -, -, hexec⟩
  · exact .inl (by rw [hq, ageAll_nil])
  · exact .inl (by rw [hq, State.setInFlight_inFlight])
  · obtain ⟨-, -, hflight, -, -⟩ := exec_next_fields hexec
    exact .inr (by rw [hflight, hq, State.setInFlight_inFlight, List.tail_cons])

/-- Settles O36: the word joins behind what the transfer and the stage leave. -/
theorem commandPortAccepts : Obligations.CommandPortAccepts := by
  unfold Obligations.CommandPortAccepts
  refine ⟨fun p pin s => ?_, fun p pin s t hrst hseen h => ?_⟩
  · rw [accepts, Bool.and_eq_true]
    exact ⟨fun ⟨hvalid, hready⟩ => ⟨rst_of_cmdReady hready, hvalid, hready⟩,
      fun ⟨_, hvalid, hready⟩ => ⟨hvalid, hready⟩⟩
  · obtain ⟨u, hexec, rfl⟩ := edge_next_parts hrst hseen h
    obtain ⟨-, hflight, -, -, -, htake, -, -⟩ := takeResult_frame pin s
    have haccepted : u.accepted = s.accepted := (executeOldest_foreseen hexec).2.trans htake
    refine ⟨u, hexec, hflight ▸ executeOldest_inFlight hexec, fun haccepts => ?_, fun hrefuses => ?_⟩
    · simp [acceptCommand, haccepts, haccepted]
    · simp [acceptCommand, hrefuses, haccepted]

-- The result port (20_memory.md R49)

/-- The accumulator stage takes no result and adds at most one, behind those that wait. -/
theorem executeOldest_results {p : Params} {s t : State} (h : executeOldest p s = .next t) :
    t.taken = s.taken ∧ ∃ new, t.resWaiting = s.resWaiting ++ new ∧ new.length ≤ 1 := by
  rcases executeOldest_cases h with ⟨-, rfl⟩ | ⟨c, rest, -, -, rfl⟩ | ⟨c, rest, -, -, -, hexec⟩
  · exact ⟨rfl, [], by simp⟩
  · exact ⟨rfl, [], by simp⟩
  · obtain ⟨-, hwaiting, -, htaken, -⟩ := exec_next_fields hexec
    exact ⟨htaken, _, hwaiting, Option.length_toList_le⟩

theorem acceptCommand_results (p : Params) (pin : PortIn) (before s : State) :
    (acceptCommand p pin before s).taken = s.taken ∧ (acceptCommand p pin before s).resWaiting = s.resWaiting := by
  rcases acceptCommand_cases p pin before s with ⟨-, h⟩ | ⟨-, h⟩
  · simp [h]
  · simp [h]

/-- After the transfer, an edge takes no result and adds at most one, behind those that wait. -/
theorem edge_results {p : Params} {pin : PortIn} {s t : State} (hrst : pin.rst = false)
    (hseen : s.resetSeen = true) (h : edge p pin s = .next t) :
    t.taken = (takeResult pin s).taken ∧
      ∃ new, t.resWaiting = (takeResult pin s).resWaiting ++ new ∧ new.length ≤ 1 := by
  obtain ⟨u, hexec, rfl⟩ := edge_next_parts hrst hseen h
  obtain ⟨htaken, hwaiting⟩ := acceptCommand_results p pin s u
  rw [State.tick_taken, State.tick_resWaiting, htaken, hwaiting]
  exact executeOldest_results hexec

theorem takeResult_of_not_takes {pin : PortIn} {s : State} (h : takes pin s = false) : takeResult pin s = s := by
  simp [takeResult, h]

theorem res_of_resWaiting_cons {p : Params} {s : State} {v : Total} {rest : List Total}
    (h : s.resWaiting = v :: rest) : res p s = v := by
  rw [res, h, List.headD_cons]

theorem resValid_iff {s : State} : resValid s = true ↔ ∃ v rest, s.resWaiting = v :: rest := by
  rw [resValid, Bool.not_eq_true', List.isEmpty_eq_false_iff, List.ne_nil_iff_exists_cons]

/-- Settles O38: what an edge does to the results comes after the transfer and only adds behind them. -/
theorem resultPortHandsOver : Obligations.ResultPortHandsOver := by
  unfold Obligations.ResultPortHandsOver
  refine ⟨fun pin s => ?_, fun p pin s t hrst hseen h => ?_⟩
  · simp [takes, and_comm]
  obtain ⟨htaken, new, hwaiting, hnew⟩ := edge_results hrst hseen h
  refine ⟨fun htakes => ?_, fun hstays => ?_, fun hvalid hstays => ?_⟩
  · rcases takeResult_cases pin s with ⟨hstays, -⟩ | ⟨v, rest, -, hcons, htake⟩
    · simp [htakes] at hstays
    · rw [htake] at htaken hwaiting
      rw [res_of_resWaiting_cons hcons]
      exact ⟨rest, new, hcons, htaken, hwaiting, hnew⟩
  · rw [takeResult_of_not_takes hstays] at htaken hwaiting
    exact ⟨htaken, new, hwaiting, hnew⟩
  · obtain ⟨v, rest, hcons⟩ := resValid_iff.mp hvalid
    rw [takeResult_of_not_takes hstays, hcons, List.cons_append] at hwaiting
    exact ⟨resValid_iff.mpr ⟨v, rest ++ new, hwaiting⟩,
      (res_of_resWaiting_cons hwaiting).trans (res_of_resWaiting_cons hcons).symm⟩

-- The accumulator stage (20_memory.md R45, 70_reset_and_hazards.md R145)

/-- The stage asks nothing of the state but the count of edges. -/
theorem stageHolds_congr {p : Params} {c : InFlight} {s s' : State} (h : s.edge = s'.edge) :
    stageHolds p c s = stageHolds p c s' := by
  rw [stageHolds, stageHolds, h]

/-- Only an `RD` stalls, and only at a full result port. -/
theorem stalls_iff {p : Params} {i : Instr} {s : State} :
    stalls p i s = true ↔ i = .rd ∧ p.resDepth ≤ s.resWaiting.length := by
  cases i with
  | clr => simp [stalls]
  | acc b => simp [stalls]
  | rd => simp [stalls, resultPortFull_iff]
  | reserved data => simp [stalls]

theorem executeOldest_of_neither_held_nor_stalled {p : Params} {c : InFlight} {rest : List InFlight} {s : State}
    (hq : s.inFlight = c :: rest) (hhold : stageHolds p c s = false) (hstall : stalls p (decode c.word) s = false) :
    executeOldest p s = exec (decode c.word) (s.setInFlight (ageAll rest)) := by
  simp [executeOldest, hq, hhold, hstall]

theorem edge_of_executeOldest {p : Params} {pin : PortIn} {s u : State} (hrst : pin.rst = false)
    (hseen : s.resetSeen = true) (h : executeOldest p (takeResult pin s) = .next u) :
    edge p pin s = .next (acceptCommand p pin s u).tick := by
  simp [edge, hrst, hseen, h]

/-- Settles O42: after the transfer the oldest command is still the one it was, and the stage executes it. -/
theorem stepRunsTheDecodedCommand : Obligations.StepRunsTheDecodedCommand := by
  unfold Obligations.StepRunsTheDecodedCommand
  intro s c rest hseen hrst hq hhold hroom
  obtain ⟨-, hflight, -, -, hedge, -, -, -⟩ := takeResult_frame (nextPins s) s.dropPins
  have hhold' : stageHolds Config.params c (takeResult (nextPins s) s.dropPins) = false :=
    (stageHolds_congr hedge).trans hhold
  have hstall : stalls Config.params (decode c.word) (takeResult (nextPins s) s.dropPins) = false := by
    rw [← Bool.not_eq_true, stalls_iff]
    exact fun ⟨hrd, hfull⟩ => (hroom hrd).not_ge hfull
  have hexec := everyCommandCompletes (decode c.word)
    ((takeResult (nextPins s) s.dropPins).setInFlight (ageAll rest))
  exact ⟨_, hexec, edge_of_executeOldest hrst hseen
    ((executeOldest_of_neither_held_nor_stalled (hflight.trans hq) hhold' hstall).trans hexec)⟩

end Sys2Proof.Machine

/-! PROOFS. The encoding of commands (30_encoding.md): the two fields of a word, the decoder and the encoder, the
assembler and the disassembler, and the words without effect. The idea of the first: a word is its `op` field put
before its `data` field, so that what the decoder, the encoder and the mask 0x300 do is read off the two fields. The
words without effect are followed through the port actions of an edge. -/

namespace Sys2Proof.Machine

open Sys2Proof.Config (Params)

-- The two fields of a word (30_encoding.md R60)

theorem opField_append (op : BitVec 2) (data : Byte) : opField (op ++ data) = op :=
  BitVec.extractLsb'_append_eq_left

theorem dataField_append (op : BitVec 2) (data : Byte) : dataField (op ++ data) = data :=
  BitVec.extractLsb'_append_eq_right

theorem opField_append_dataField (w : CmdWord) : opField w ++ dataField w = w :=
  (BitVec.extractLsb'_append_extractLsb'_eq_extractLsb' rfl).trans BitVec.extractLsb'_eq_self

theorem append_toNat (op : BitVec 2) (data : Byte) : (op ++ data).toNat = 256 * op.toNat + data.toNat := by
  rw [BitVec.toNat_append, ← Nat.shiftLeft_add_eq_or_of_lt data.isLt, Nat.shiftLeft_eq, Nat.mul_comm]

theorem toNat_eq_fields (w : CmdWord) : w.toNat = 256 * (opField w).toNat + (dataField w).toNat := by
  rw [← append_toNat, opField_append_dataField]

theorem accWord_toNat (b : Byte) : (accWord b).toNat = 0x100 + b.toNat := by
  have hb := b.isLt
  simp only [accWord, BitVec.toNat_add, BitVec.toNat_setWidth, BitVec.toNat_ofNat]
  omega

theorem accWord_eq_append (b : Byte) : accWord b = 0b01#2 ++ b :=
  BitVec.eq_of_toNat_eq ((accWord_toNat b).trans (append_toNat 0b01#2 b).symm)

theorem accWord_dataField {w : CmdWord} (h : opField w = 0b01#2) : accWord (dataField w) = w := by
  rw [accWord_eq_append, ← h, opField_append_dataField]

-- The decoder (30_encoding.md R61, R63, R64)

theorem decode_of_op_clr {w : CmdWord} (h : opField w = 0b00#2) : decode w = .clr := by
  simp [decode, h]

theorem decode_of_op_acc {w : CmdWord} (h : opField w = 0b01#2) : decode w = .acc (dataField w) := by
  simp [decode, h]

theorem decode_of_op_rd {w : CmdWord} (h : opField w = 0b10#2) : decode w = .rd := by
  simp [decode, h]

theorem decode_of_op_reserved {w : CmdWord} (h : opField w = 0b11#2) : decode w = .reserved (dataField w) := by
  simp [decode, h]

/-- The row of the opcode map a word is in, and what it decodes to there. -/
theorem decode_cases (w : CmdWord) :
    (opField w = 0b00#2 ∧ decode w = .clr) ∨ (opField w = 0b01#2 ∧ decode w = .acc (dataField w)) ∨
    (opField w = 0b10#2 ∧ decode w = .rd) ∨ (opField w = 0b11#2 ∧ decode w = .reserved (dataField w)) := by
  have hrows : ∀ op : BitVec 2, op = 0b00#2 ∨ op = 0b01#2 ∨ op = 0b10#2 ∨ op = 0b11#2 := by decide
  rcases hrows (opField w) with h | h | h | h
  · exact .inl ⟨h, decode_of_op_clr h⟩
  · exact .inr (.inl ⟨h, decode_of_op_acc h⟩)
  · exact .inr (.inr (.inl ⟨h, decode_of_op_rd h⟩))
  · exact .inr (.inr (.inr ⟨h, decode_of_op_reserved h⟩))

theorem decode_accWord (b : Byte) : decode (accWord b) = .acc b := by
  rw [accWord_eq_append, decode_of_op_acc (opField_append _ b), dataField_append]

/-- The encoder's words decode to the command they encode. -/
theorem decode_of_encode {i : Instr} {w : CmdWord} (h : encode i = some w) : decode w = i := by
  cases i with
  | clr =>
    cases h
    rfl
  | acc b =>
    cases h
    exact decode_accWord b
  | rd =>
    cases h
    rfl
  | reserved data => cases h

theorem exists_encode_of_wellFormed {i : Instr} (h : i.wellFormed = true) :
    ∃ w, encode i = some w ∧ decode w = i := by
  cases i with
  | clr => exact ⟨_, rfl, decode_of_encode rfl⟩
  | acc b => exact ⟨_, rfl, decode_of_encode (i := .acc b) rfl⟩
  | rd => exact ⟨_, rfl, decode_of_encode rfl⟩
  | reserved data => cases h

/-- The words that encode back to themselves, by the rows of the opcode map. -/
theorem encode_decode_eq_self_iff (w : CmdWord) :
    encode (decode w) = some w ↔ w.toNat = 0x000 ∨ w.toNat = 0x200 ∨ (0x100 ≤ w.toNat ∧ w.toNat ≤ 0x1FF) := by
  have hfields := toNat_eq_fields w
  have hdata := (dataField w).isLt
  rcases decode_cases w with ⟨hop, hdecode⟩ | ⟨hop, hdecode⟩ | ⟨hop, hdecode⟩ | ⟨hop, hdecode⟩
  · have hw : w.toNat = (dataField w).toNat := by simpa [hop] using hfields
    rw [hdecode, encode, Option.some_inj, ← BitVec.toNat_inj, BitVec.toNat_ofNat]
    omega
  · have hw : w.toNat = 0x100 + (dataField w).toNat := by simpa [hop] using hfields
    rw [hdecode]
    exact iff_of_true (congrArg some (accWord_dataField hop)) (by omega)
  · have hw : w.toNat = 0x200 + (dataField w).toNat := by simpa [hop] using hfields
    rw [hdecode, encode, Option.some_inj, ← BitVec.toNat_inj, BitVec.toNat_ofNat]
    omega
  · have hw : w.toNat = 0x300 + (dataField w).toNat := by simpa [hop] using hfields
    rw [hdecode]
    exact iff_of_false (by simp [encode]) (by omega)

/-- Settles O3, from what the decoder does in each row. -/
theorem decodeAndEncodeAgree : Obligations.DecodeAndEncodeAgree := by
  unfold Obligations.DecodeAndEncodeAgree
  exact ⟨fun w => ⟨decode_of_op_clr, decode_of_op_acc, decode_of_op_rd, decode_of_op_reserved⟩, rfl, rfl,
    fun b => ⟨accWord b, rfl, accWord_toNat b⟩, fun i => exists_encode_of_wellFormed, encode_decode_eq_self_iff⟩

-- A number as a command word (30_encoding.md R60)

/-- However many bits from ten on are said to hold a word, the decoder reads the word. -/
theorem decodeTableWord_toNat {nbits : Nat} (h : 10 ≤ nbits) (w : CmdWord) :
    decodeTableWord nbits w.toNat = some (decode w) := by
  have hfits : w.toNat < 2 ^ nbits := lt_of_lt_of_le w.isLt (Nat.pow_le_pow_right (by norm_num) h)
  have hword : isCmdWord w.toNat = true := decide_eq_true w.isLt
  simp [decodeTableWord, decodeNat, hfits, hword, Except.toOption]

/-- Settles O4, word by word. -/
theorem decodesWrittenWords : Obligations.DecodesWrittenWords := by
  unfold Obligations.DecodesWrittenWords
  have hread (w : CmdWord) : decodeTableWord 16 w.toNat = some (decode w) := decodeTableWord_toNat (by decide) w
  exact ⟨hread 0x000#10, hread 0x0FF#10, hread 0x100#10, hread 0x17A#10, hread 0x200#10, hread 0x2FF#10,
    hread 0x300#10, rfl⟩

-- The assembler's expansion (30_encoding.md R69, R70)

theorem map_decode_map_accWord (text : List Byte) : (text.map accWord).map decode = text.map .acc := by
  rw [List.map_map]
  exact List.map_congr_left fun b _ => decode_accWord b

theorem map_decode_lineWords (l : AsmLine) : (lineWords l).map decode = lineCommands l := by
  cases l with
  | clr => rfl
  | acc b => simp [lineWords, lineCommands, decode_accWord]
  | rd => rfl
  | word w => rfl
  | accs text => exact map_decode_map_accWord text
  | parse text =>
    rw [lineWords, List.map_cons, List.map_append, map_decode_map_accWord]
    rfl
  | accn b count => simp [lineWords, lineCommands, decode_accWord]

/-- No line but `.word` stands for a reserved word. -/
theorem lineCommands_wellFormed {l : AsmLine} (hl : ∀ w, l ≠ .word w) :
    ∀ i ∈ lineCommands l, i.wellFormed = true := by
  cases l with
  | clr => simp [lineCommands, Instr.wellFormed]
  | acc b => simp [lineCommands, Instr.wellFormed]
  | rd => simp [lineCommands, Instr.wellFormed]
  | word w => exact absurd rfl (hl w)
  | accs text => simp [lineCommands, Instr.wellFormed]
  | parse text => simp [lineCommands, Instr.wellFormed, or_imp, forall_and]
  | accn b count => simp [lineCommands, Instr.wellFormed]

/-- Settles O5, line by line and from the decoder's reading of the encoder's words. -/
theorem programsDecodeToTheirCommands : Obligations.ProgramsDecodeToTheirCommands := by
  unfold Obligations.ProgramsDecodeToTheirCommands
  refine ⟨fun program => ⟨?_, fun hword i hi => ?_⟩, fun i hi => ?_⟩
  · simp only [List.map_flatMap, map_decode_lineWords]
  · obtain ⟨l, hl, hi⟩ := List.mem_flatMap.mp hi
    exact lineCommands_wellFormed (fun w hw => hword w (hw ▸ hl)) i hi
  · obtain ⟨w, hencode, hdecode⟩ := exists_encode_of_wellFormed hi
    exact ⟨w, hencode, hdecode, fun nbits h => hdecode ▸ decodeTableWord_toNat h w⟩

-- The opcode map (30_encoding.md R61)

/-- The mask 0x300 keeps the `op` field of a word and clears its `data` field. -/
theorem and_mask_eq_append (w : CmdWord) : w &&& 0x300#10 = opField w ++ 0#8 :=
  calc w &&& 0x300#10
    _ = (opField w ++ dataField w) &&& (BitVec.allOnes 2 ++ 0#8) := by rw [opField_append_dataField]; rfl
    _ = opField w ++ 0#8 := by rw [BitVec.and_append, BitVec.and_allOnes, BitVec.and_zero]

theorem and_mask_eq_iff {w : CmdWord} {op : BitVec 2} : w &&& 0x300#10 = op ++ 0#8 ↔ opField w = op := by
  rw [and_mask_eq_append, BitVec.append_left_inj]

/-- What a word decodes to tells its row of the opcode map. -/
theorem decode_iff_opField (w : CmdWord) :
    (decode w = .clr ↔ opField w = 0b00#2) ∧ ((∃ b, decode w = .acc b) ↔ opField w = 0b01#2) ∧
    (decode w = .rd ↔ opField w = 0b10#2) ∧ ((∃ d, decode w = .reserved d) ↔ opField w = 0b11#2) := by
  rcases decode_cases w with ⟨hop, hdecode⟩ | ⟨hop, hdecode⟩ | ⟨hop, hdecode⟩ | ⟨hop, hdecode⟩ <;>
    simp [hop, hdecode]

theorem opField_ofNat_eq_iff {n : Nat} (hn : n < 1024) (op : BitVec 2) :
    opField (BitVec.ofNat 10 n) = op ↔ 256 * op.toNat ≤ n ∧ n < 256 * op.toNat + 256 := by
  have hfields : n = 256 * (opField (BitVec.ofNat 10 n)).toNat + (dataField (BitVec.ofNat 10 n)).toNat := by
    rw [← toNat_eq_fields, BitVec.toNat_ofNat, Nat.mod_eq_of_lt hn]
  have hdata := (dataField (BitVec.ofNat 10 n)).isLt
  rw [← BitVec.toNat_inj]
  omega

/-- The words of one row are the 256 numbers from `256 * op` on. -/
theorem row_length (op : BitVec 2) :
    ((List.range 1024).filter fun n => decide (BitVec.ofNat 10 n &&& 0x300#10 = op ++ 0#8)).length = 256 := by
  have hinterval : (Finset.range 1024).filter (fun n => BitVec.ofNat 10 n &&& 0x300#10 = op ++ 0#8) =
      Finset.Ico (256 * op.toNat) (256 * op.toNat + 256) := by
    ext n
    rw [Finset.mem_filter, Finset.mem_range, Finset.mem_Ico, and_mask_eq_iff]
    have hop := op.isLt
    refine ⟨fun ⟨hn, hrow⟩ => (opField_ofNat_eq_iff hn op).mp hrow, fun hmem => ?_⟩
    have hn : n < 1024 := by omega
    exact ⟨hn, (opField_ofNat_eq_iff hn op).mpr hmem⟩
  rw [← List.countP_eq_length_filter]
  change Nat.count _ 1024 = 256
  rw [Nat.count_eq_card_filter_range, hinterval, Nat.card_Ico, Nat.add_sub_cancel_left]

/-- Settles O1: the match values are the words with data field 0. -/
theorem opcodeMapPartitionsWords : Obligations.OpcodeMapPartitionsWords := by
  unfold Obligations.OpcodeMapPartitionsWords
  refine ⟨fun w => ?_, ?_⟩
  · obtain ⟨hclr, hacc, hrd, hreserved⟩ := decode_iff_opField w
    exact ⟨hclr.trans and_mask_eq_iff.symm, hacc.trans and_mask_eq_iff.symm, hrd.trans and_mask_eq_iff.symm,
      hreserved.trans and_mask_eq_iff.symm⟩
  · intro m hm
    obtain ⟨op, -, rfl⟩ : ∃ op ∈ [0b00#2, 0b01#2, 0b10#2, 0b11#2], op ++ 0#8 = m := List.mem_map.mp hm
    exact row_length op

-- The disassembler's text, read again (30_encoding.md R63, R69)

theorem disassemble_of_op_clr {w : CmdWord} (h : opField w = 0b00#2) : disassemble w = ['c', 'l', 'r'] := by
  rw [disassemble, decode_of_op_clr h]

theorem disassemble_of_op_rd {w : CmdWord} (h : opField w = 0b10#2) : disassemble w = ['r', 'd'] := by
  rw [disassemble, decode_of_op_rd h]

theorem readLine_clr : readLine ['c', 'l', 'r'] = .ok (some .clr) := rfl

theorem readLine_rd : readLine ['r', 'd'] = .ok (some .rd) := rfl

/-- Settles O2. -/
theorem dataFieldOfClrAndRdIgnored : Obligations.DataFieldOfClrAndRdIgnored := by
  unfold Obligations.DataFieldOfClrAndRdIgnored
  exact ⟨fun w h => ⟨decode_of_op_clr h, disassemble_of_op_clr h⟩,
    fun w h => ⟨decode_of_op_rd h, disassemble_of_op_rd h⟩, rfl, rfl, readLine_clr, rfl, readLine_rd, rfl⟩

/-- A program text whose lines are read assembles to the words of the lines. -/
theorem assemble_of_readLine {text : List (List Char)} {program : List AsmLine}
    (h : List.Forall₂ (fun cs l => readLine cs = .ok (some l)) text program) :
    assemble text = .ok (program.flatMap lineWords) := by
  induction h with
  | nil => rfl
  | cons hline _ ih =>
    rw [assemble, hline, ih, List.flatMap_cons]
    rfl

theorem assemble_of_readLine_error {cs : List Char} {e : AsmError} (h : readLine cs = .error e)
    (text : List (List Char)) : assemble (cs :: text) = .error e := by
  rw [assemble, h]
  rfl

theorem hexDigit_hexChar {n : Nat} (h : n < 16) : hexDigit (hexChar n) = some n := by
  interval_cases n <;> rfl

theorem takeDigits_hexByte (b : Byte) :
    takeDigits hexDigit (hexByte b) = ([b.toNat / 16, b.toNat % 16], []) := by
  have hb := b.isLt
  have hhigh := hexDigit_hexChar (n := b.toNat / 16) (by omega)
  have hlow := hexDigit_hexChar (n := b.toNat % 16) (by omega)
  simp [hexByte, takeDigits, hhigh, hlow]

/-- Two digits spell their byte. -/
theorem takeByte_hexByte (b : Byte) : takeByte ('0' :: 'x' :: hexByte b) = .ok (b, []) := by
  have hnumber : takeNumber 16 hexDigit (hexByte b) = .ok (b.toNat, []) := by
    simp [takeNumber, takeDigits_hexByte, Nat.div_add_mod]
  simp [takeByte, hnumber, Except.bind, byteInRange, b.isLt]

/-- The digit 3 before the two of a data field spells the reserved word of that data field. -/
theorem takeWord_three_hexByte (data : Byte) :
    takeWord ('0' :: 'x' :: '3' :: hexByte data) = .ok (0b11#2 ++ data, []) := by
  have hthree : hexDigit '3' = some 3 := rfl
  have hvalue : 16 * (16 * 3 + data.toNat / 16) + data.toNat % 16 = 256 * 3 + data.toNat := by omega
  have hnumber : takeNumber 16 hexDigit ('3' :: hexByte data) = .ok ((0b11#2 ++ data).toNat, []) := by
    simp [takeNumber, takeDigits, takeDigits_hexByte, hthree, append_toNat, hvalue]
  have hword : isCmdWord (0b11#2 ++ data).toNat = true := decide_eq_true (0b11#2 ++ data).isLt
  simp [takeWord, hnumber, Except.bind, hword]

theorem readLine_acc_hex (digits : List Char) :
    readLine (['a', 'c', 'c', ' ', '0', 'x'] ++ digits) =
      (takeByte ('0' :: 'x' :: digits)).bind fun r => finishLine (.acc r.1) r.2 := rfl

theorem readLine_word_hex (digits : List Char) :
    readLine (['.', 'w', 'o', 'r', 'd', ' ', '0', 'x'] ++ digits) =
      (takeWord ('0' :: 'x' :: digits)).bind fun r => finishLine (.word r.1) r.2 := rfl

theorem readLine_disassemble_of_op_acc {w : CmdWord} (h : opField w = 0b01#2) :
    readLine (disassemble w) = .ok (some (.acc (dataField w))) := by
  rw [disassemble, decode_of_op_acc h]
  exact (readLine_acc_hex _).trans (by rw [takeByte_hexByte]; rfl)

theorem readLine_disassemble_of_op_reserved {w : CmdWord} (h : opField w = 0b11#2) :
    readLine (disassemble w) = .ok (some (.word w)) := by
  rw [disassemble, decode_of_op_reserved h]
  refine (readLine_word_hex ('3' :: hexByte (dataField w))).trans ?_
  rw [takeWord_three_hexByte, ← h, opField_append_dataField]
  rfl

theorem assemble_singleton {cs : List Char} {l : AsmLine} (h : readLine cs = .ok (some l)) :
    assemble [cs] = .ok (lineWords l) := by
  rw [assemble_of_readLine (.cons h .nil), List.flatMap_singleton]

/-- Settles O6, by the rows of the opcode map. -/
theorem disassemblyAssemblesBack : Obligations.DisassemblyAssemblesBack := by
  unfold Obligations.DisassemblyAssemblesBack
  intro w
  rcases decode_cases w with ⟨hop, -⟩ | ⟨hop, -⟩ | ⟨hop, -⟩ | ⟨hop, -⟩
  · rw [disassemble_of_op_clr hop, assemble_singleton readLine_clr, if_pos hop]
    rfl
  · rw [assemble_singleton (readLine_disassemble_of_op_acc hop), lineWords, accWord_dataField hop, hop]
    rfl
  · rw [disassemble_of_op_rd hop, assemble_singleton readLine_rd, hop]
    rfl
  · rw [assemble_singleton (readLine_disassemble_of_op_reserved hop), lineWords, hop]
    rfl

/-- Settles O7: each program's lines are read as the commands given here, which expand to the words. -/
theorem assemblesWrittenPrograms : Obligations.AssemblesWrittenPrograms := by
  unfold Obligations.AssemblesWrittenPrograms
  refine ⟨assemble_of_readLine (program := [.parse [0x31#8, 0x32#8]]) ?_,
    assemble_of_readLine (program := [.parse [0x2D#8, 0x35#8]]) ?_,
    assemble_of_readLine (program := [.clr, .acc 0x34#8, .rd, .acc 0x32#8, .rd, .rd]) ?_,
    assemble_of_readLine (program := [.accs [], .accn 0x7A#8 3, .word 0x3FF#10, .acc 0x30#8]) ?_,
    assemble_of_readLine (program := [.acc 0x3B#8, .accs [0x61#8, 0x3B#8, 0x62#8]]) ?_,
    assemble_of_readLine_error ?_ [], assemble_of_readLine_error ?_ []⟩
  all_goals decide +kernel

-- The reserved words (30_encoding.md R66)

theorem checkSequence_cons_of_reserved {w : CmdWord} {data : Byte} (h : decode w = .reserved data)
    (ws : List CmdWord) : checkSequence (w :: ws) = .refused (.reservedWordInSequence data) := by
  rw [checkSequence, h]

/-- The refusal of the rest of a sequence is the refusal of the sequence. -/
theorem checkSequence_cons_of_wellFormed {w : CmdWord} {ws : List CmdWord} {r : Refusal}
    (hw : (decode w).wellFormed = true) (h : checkSequence ws = .refused r) :
    checkSequence (w :: ws) = .refused r := by
  cases hi : decode w with
  | reserved data => simp [hi, Instr.wellFormed] at hw
  | clr => simp [checkSequence, hi, h]
  | acc b => simp [checkSequence, hi, h]
  | rd => simp [checkSequence, hi, h]

theorem wellFormed_eq_false_iff {i : Instr} : i.wellFormed = false ↔ ∃ data, i = .reserved data := by
  cases i with
  | clr => simp [Instr.wellFormed]
  | acc b => simp [Instr.wellFormed]
  | rd => simp [Instr.wellFormed]
  | reserved data => simp [Instr.wellFormed]

theorem checkSequence_refuses {ws : List CmdWord} {w : CmdWord} (hmem : w ∈ ws)
    (hw : (decode w).wellFormed = false) :
    ∃ data, checkSequence ws = .refused (.reservedWordInSequence data) := by
  induction ws with
  | nil => exact absurd hmem List.not_mem_nil
  | cons v vs ih =>
    cases hv : (decode v).wellFormed with
    | false =>
      obtain ⟨data, hdata⟩ := wellFormed_eq_false_iff.mp hv
      exact ⟨data, checkSequence_cons_of_reserved hdata vs⟩
    | true =>
      have hvs : w ∈ vs := (List.mem_cons.mp hmem).resolve_left (by rintro rfl; simp [hw] at hv)
      obtain ⟨data, hdata⟩ := ih hvs
      exact ⟨data, checkSequence_cons_of_wellFormed hv hdata⟩

theorem run_cons_reserved (t : Total) (data : Byte) (cs : List Instr) :
    run t (.reserved data :: cs) = run t cs := rfl

theorem run_filter_wellFormed (t : Total) (cs : List Instr) : run t (cs.filter Instr.wellFormed) = run t cs := by
  induction cs generalizing t with
  | nil => rfl
  | cons c cs ih =>
    cases hc : c.wellFormed with
    | false =>
      obtain ⟨data, rfl⟩ := wellFormed_eq_false_iff.mp hc
      rw [List.filter_cons_of_neg (by simp [hc]), run_cons_reserved, ih]
    | true => rw [List.filter_cons_of_pos hc, run, run, ih]

/-- Where commands have not piled up behind an `RD`, there is time for one more. -/
theorem latencyHasRoom_of_paced {p : Params} {s : State} {c : InFlight} {rest : List InFlight} (hs : Paced p s)
    (hq : s.inFlight = c :: rest) (hc : decode c.word ≠ .rd) : latencyHasRoom p s = true := by
  obtain ⟨-, -, hbacklog⟩ := hs
  have hrest : rest.length < p.cmdLatencyMax := by simpa [backlogHeldByRd, hq, hc] using hbacklog
  rw [latencyHasRoom_iff, hq]
  exact hrest

theorem cmdReady_of_oldestCompletes {p : Params} {s : State} (hrecovered : recovered p s = true)
    (hlatency : latencyHasRoom p s = true) (holdest : oldestCompletes p s = true) : cmdReady p false s = true := by
  simp [cmdReady, hrecovered, hlatency, holdest]

/-- Settles O19: a reserved word neither waits in the stage nor does anything there. -/
theorem reservedWordHasNoEffect : Obligations.ReservedWordHasNoEffect := by
  unfold Obligations.ReservedWordHasNoEffect
  refine ⟨fun data s => rfl, fun ws w => checkSequence_refuses, fun t c => (run_filter_wellFormed t c).symm,
    fun p s c rest data hq hc => ?_⟩
  obtain ⟨hhold, hstall⟩ := reserved_never_waits (p := p) (s := s) hc
  refine ⟨?_, fun hpaced hrecovered => ?_⟩
  · rw [executeOldest_of_neither_held_nor_stalled hq hhold hstall, hc]
    rfl
  · have holdest : oldestCompletes p s = true := by simp [oldestCompletes, hq, hhold, hstall]
    exact cmdReady_of_oldestCompletes hrecovered (latencyHasRoom_of_paced hpaced hq (by simp [hc])) holdest

-- A word that is not accepted (30_encoding.md R71)

/-- The word on `cmd` reaches an edge only by being accepted. -/
theorem edge_with_cmd_of_not_accepts {p : Params} {pin : PortIn} {s : State} (h : accepts p pin s = false)
    (w : CmdWord) : edge p { pin with cmd := w } s = edge p pin s := by
  have hnone : accepts p { pin with cmd := w } s = false := h
  have htake : takeResult { pin with cmd := w } s = takeResult pin s := rfl
  simp [edge, acceptCommand, h, hnone, htake]

/-- Settles O37: in each of the three cases nothing is accepted. -/
theorem unacceptedWordHasNoEffect : Obligations.UnacceptedWordHasNoEffect := by
  unfold Obligations.UnacceptedWordHasNoEffect
  intro p pin s w h
  apply edge_with_cmd_of_not_accepts
  rcases h with hvalid | hready | hrst
  · simp [accepts, hvalid]
  · simp [accepts, hready]
  · simp [accepts, hrst, cmdReady_of_rst]

end Sys2Proof.Machine

/-! PROOFS. The initialise command `CLR` (40_initialise.md). The idea: `CLR` reads nothing, so that a run from a `CLR` on
is a run from 0, and a run is cut into its parts before and after any place in the sequence. -/

namespace Sys2Proof.Machine

-- A run with a `CLR` in it (40_initialise.md R81)

/-- What follows a sequence starts at the `total` the sequence leaves, and its results come after those of the
sequence. -/
theorem run_append (t : Total) (cs ds : List Instr) :
    run t (cs ++ ds) = ((run (run t cs).1 ds).1, (run t cs).2 ++ (run (run t cs).1 ds).2) := by
  simpa [runAfter] using runAfter_append (t, []) cs ds

theorem run_cons_clr (t : Total) (cs : List Instr) : run t (.clr :: cs) = run Config.initTotal cs := rfl

/-- What follows a `CLR` runs the same from every start and after every history. -/
theorem run_append_cons_clr (t t' : Total) (cs ds : List Instr) :
    run t (cs ++ .clr :: ds) = ((run t' (.clr :: ds)).1, (run t cs).2 ++ (run t' (.clr :: ds)).2) := by
  rw [run_append, run_cons_clr, run_cons_clr]

theorem run_concat_clr_total (t : Total) (cs : List Instr) : (run t (cs ++ [.clr])).1 = Config.initTotal := by
  rw [run_append_cons_clr t t, run_cons_clr, run]

/-- Settles O9: each law cuts the run at a `CLR`, from where on it is the run from 0. -/
theorem clrLaws : Obligations.ClrLaws := by
  unfold Obligations.ClrLaws
  refine ⟨fun t cs => ?_, run_concat_clr_total, run_append_cons_clr, fun t => ?_⟩
  · rw [run_cons_clr, run_cons_clr, run_cons_clr]
  · rw [run_cons_clr]
    rfl

-- `CLR` in a state (40_initialise.md R80)

/-- The words of `CLR` are those whose `op` field, the part of the number above 0x0FF, is 0. -/
theorem decode_eq_clr_iff_toNat_le (w : CmdWord) : decode w = .clr ↔ w.toNat ≤ 0x0FF := by
  obtain ⟨hclr, -, -, -⟩ := decode_iff_opField w
  have hfields := toNat_eq_fields w
  have hdata := (dataField w).isLt
  have hzero : (0b00#2).toNat = 0 := rfl
  rw [hclr, ← BitVec.toNat_inj]
  omega

theorem exec_clr (s : State) : exec .clr s = .next (s.setTotal Config.initTotal) := rfl

/-- Only the old value of `total` could tell the two states apart, and `CLR` overwrites it. -/
theorem exec_clr_setTotal (s : State) (v : Total) : exec .clr (s.setTotal v) = exec .clr s := rfl

/-- Settles O8. -/
theorem clrWritesZero : Obligations.ClrWritesZero := by
  unfold Obligations.ClrWritesZero
  exact ⟨decode_eq_clr_iff_toNat_le, rfl, fun s => ⟨exec_clr s, exec_clr_setTotal s⟩⟩

end Sys2Proof.Machine

/-! PROOFS. The multiply-add command `ACC` (41_multiply_add.md). The idea: each stage keeps the
low bits of an exact integer, so that `mac t b` is congruent to `10 * t + digit8 b` modulo every power of two up to
2^128. Since ten is even, each `mac` makes one more low bit independent of the start value. -/

namespace Sys2Proof.Machine

-- MUL10 (41_multiply_add.md R86, R91)

theorem mulWraps_iff_lt (t : Total) : mulWraps t = true ↔ 0x19999999999999999999999999999999 < t.toNat := by
  rw [mulWraps, decide_eq_true_iff]
  omega

/-- The product wraps exactly where the exact product does not fit. -/
theorem mul10_toNat_ne_iff (t : Total) : (mul10 t).toNat ≠ 10 * t.toNat ↔ mulWraps t = true := by
  rw [mul10_toNat, mulWraps, decide_eq_true_iff, ne_eq, Nat.mod_eq_iff_lt (by norm_num), not_lt]

/-- Settles O11. -/
theorem mul10KeepsLowBits : Obligations.Mul10KeepsLowBits := by
  unfold Obligations.Mul10KeepsLowBits
  refine ⟨fun t => ?_, by decide, by decide, by decide, by decide, by decide, by decide⟩
  have ht := t.isLt
  rw [Nat.mul_comm t.toNat 10]
  exact ⟨mul10_toNat t, by omega, mulWraps_iff_lt t, (mul10_toNat_ne_iff t).trans (mulWraps_iff_lt t)⟩

/-- The product by ten as shift and add, 10 = 8 + 2. -/
theorem mul10_eq_shifts (t : Total) : mul10 t = (t <<< 3) + (t <<< 1) := by
  apply BitVec.eq_of_toNat_eq
  rw [mul10_toNat, BitVec.toNat_add, BitVec.toNat_shiftLeft, BitVec.toNat_shiftLeft, Nat.shiftLeft_eq,
    Nat.shiftLeft_eq]
  omega

-- DIGIT (41_multiply_add.md R87, R91, R92)

theorem digit8_toNat_of_ge {b : Byte} (h : 0x30 ≤ b.toNat) : (digit8 b).toNat = b.toNat - 48 := by
  have hb := b.isLt
  rw [digit8_toNat]
  omega

theorem digit8_toNat_of_lt {b : Byte} (h : b.toNat < 0x30) : (digit8 b).toNat = b.toNat + 208 := by
  rw [digit8_toNat]
  omega

/-- The wrapping subtraction as an integer: subtracting 48 and adding 208 agree modulo 256. -/
theorem digit8_toNat_int (b : Byte) : ((digit8 b).toNat : Int) = ((b.toNat : Int) - 48) % 256 := by
  rw [digit8_toNat]
  omega

/-- The widening puts zeros above the eight bits of the difference. -/
theorem digit_eq_append (b : Byte) : digit b = 0#120 ++ digit8 b := by
  apply BitVec.eq_of_toNat_eq
  rw [digit_toNat, BitVec.toNat_append]
  simp

/-- Settles O12. -/
theorem digitSubtractsThenWidens : Obligations.DigitSubtractsThenWidens := by
  unfold Obligations.DigitSubtractsThenWidens
  refine ⟨fun b => ⟨digit8_toNat_int b, digit8_toNat_of_ge, digit8_toNat_of_lt, ?_, ?_, digit_toNat b, ?_⟩,
    by decide, by decide, by decide, by decide, by decide, by decide, by decide⟩
  · rw [digit_eq_append]
    exact BitVec.extractLsb'_append_eq_right
  · rw [digit_eq_append]
    exact BitVec.extractLsb'_append_eq_left
  · rw [digit_toNat]
    exact Nat.le_of_lt_succ (digit8 b).isLt

/-- `digit8` is the rotation of the bytes by 48. -/
theorem digit8_bijective : Function.Bijective digit8 := by
  have hrotation : digit8 = Equiv.subRight 0x30#8 := funext digit8_eq_sub
  rw [hrotation]
  exact Equiv.bijective _

theorem digit_injective : Function.Injective digit := by
  intro b c h
  apply digit8_bijective.injective
  rw [← BitVec.toNat_inj, ← digit_toNat, ← digit_toNat, h]

/-- Settles O15: a byte from 0x30 on has its code less 48, a byte below has its code and 208. -/
theorem byteClasses : Obligations.ByteClasses := by
  unfold Obligations.ByteClasses
  refine ⟨fun b hb => ?_, fun b hb => ?_, fun b hb => ?_, digit8_bijective⟩
  · obtain ⟨hlow, hhigh⟩ := of_decide_eq_true hb
    rw [digit_toNat, digit8_toNat_of_ge hlow]
    omega
  · rw [digit_toNat, digit8_toNat_of_lt (by omega)]
    omega
  · have hbyte := b.isLt
    rw [digit_toNat, digit8_toNat_of_ge (by omega)]
    omega

-- ADD (41_multiply_add.md R88)

theorem add_eq_add (p d : Total) : add p d = p + d :=
  BitVec.eq_of_toNat_eq ((add_toNat p d).trans (BitVec.toNat_add p d).symm)

theorem addWraps_iff_lt (p d : Total) : addWraps p d = true ↔ 2 ^ 128 - 1 - d.toNat < p.toNat := by
  have hd := d.isLt
  rw [addWraps, decide_eq_true_iff]
  omega

/-- The sum wraps exactly where the exact sum does not fit. -/
theorem add_toNat_ne_iff (p d : Total) : (add p d).toNat ≠ p.toNat + d.toNat ↔ addWraps p d = true := by
  rw [add_toNat, addWraps, decide_eq_true_iff, ne_eq, Nat.mod_eq_iff_lt (by norm_num), not_lt]

/-- Settles O13. -/
theorem addDropsCarry : Obligations.AddDropsCarry := by
  unfold Obligations.AddDropsCarry
  refine ⟨fun p d => ?_, by decide, by decide, by decide, by decide⟩
  have hp := p.isLt
  have hd := d.isLt
  exact ⟨add_toNat p d, by omega, addWraps_iff_lt p d, (add_toNat_ne_iff p d).trans (addWraps_iff_lt p d)⟩

-- `mac` (41_multiply_add.md R91, R94)

theorem mac_eq_add (t : Total) (b : Byte) : mac t b = mul10 t + digit b := add_eq_add _ _

theorem mac_zero (b : Byte) : mac 0#128 b = digit b := by
  have hproduct : mul10 0#128 = 0#128 := by decide
  rw [mac_eq_add, hproduct, BitVec.zero_add]

theorem mac_zeroCode (t : Total) : mac t 0x30#8 = mul10 t := by
  have hdigit : digit 0x30#8 = 0#128 := by decide
  rw [mac_eq_add, hdigit, BitVec.add_zero]

theorem mac_injective (t : Total) : Function.Injective (mac t) := by
  intro b c h
  rw [mac_eq_add, mac_eq_add] at h
  exact digit_injective (add_left_cancel h)

/-- Settles O14. -/
theorem equivalentForms : Obligations.EquivalentForms := by
  unfold Obligations.EquivalentForms
  refine ⟨mul10_eq_shifts, digit8_toNat, fun b hlow hhigh => ?_, mac_toNat, fun t b => ?_⟩
  · rw [digit8_toNat_of_ge hlow, BitVec.extractLsb'_toNat, Nat.shiftRight_zero]
    omega
  · have ht := t.isLt
    have hd := (digit8 b).isLt
    omega

/-- The exact value gives `mac` modulo every power of two up to 2^128. -/
theorem mac_toNat_modEq {k : Nat} (hk : k ≤ 128) (t : Total) (b : Byte) :
    (mac t b).toNat ≡ 10 * t.toNat + (digit8 b).toNat [MOD 2 ^ k] := by
  rw [mac_toNat]
  exact (Nat.mod_modEq _ _).of_dvd (pow_dvd_pow 2 hk)

/-- Ten is even, so `mac` brings totals that agree in their low `k` bits to totals that agree in one bit more. -/
theorem mac_modEq_succ {k : Nat} {t t' : Total} (h : t.toNat ≡ t'.toNat [MOD 2 ^ k]) (b : Byte) :
    (mac t b).toNat ≡ (mac t' b).toNat [MOD 2 ^ (k + 1)] := by
  rcases Nat.lt_or_ge k 128 with hk | hk
  · have hten : 10 * t.toNat ≡ 10 * t'.toNat [MOD 2 ^ (k + 1)] :=
      (h.mul_left' 10).of_dvd ⟨5, by rw [pow_succ]; ring⟩
    exact (mac_toNat_modEq hk t b).trans ((hten.add_right _).trans (mac_toNat_modEq hk t' b).symm)
  · have hle : 2 ^ 128 ≤ 2 ^ k := Nat.pow_le_pow_right (by norm_num) hk
    have hsame : t = t' := BitVec.eq_of_toNat_eq (h.eq_of_lt_of_lt (t.isLt.trans_le hle) (t'.isLt.trans_le hle))
    rw [hsame]

/-- Each byte of a sequence makes one more low bit independent of the start value. -/
theorem foldl_mac_modEq {k : Nat} {t t' : Total} (h : t.toNat ≡ t'.toNat [MOD 2 ^ k]) (s : List Byte) :
    (s.foldl mac t).toNat ≡ (s.foldl mac t').toNat [MOD 2 ^ (k + s.length)] := by
  induction s generalizing k t t' with
  | nil => exact h
  | cons b s ih =>
    rw [List.length_cons, Nat.add_comm s.length 1, ← Nat.add_assoc]
    exact ih (mac_modEq_succ h b)

/-- The low bits of the total after a sequence depend on its bytes alone. -/
theorem foldl_mac_modEq_length (s : List Byte) (t t' : Total) :
    (s.foldl mac t).toNat ≡ (s.foldl mac t').toNat [MOD 2 ^ s.length] := by
  have hstart : t.toNat ≡ t'.toNat [MOD 2 ^ 0] := Nat.modEq_one
  simpa using foldl_mac_modEq hstart s

/-- The top bit of the total has no influence. -/
theorem mac_congr_of_low127 {t t' : Total} (h : t.toNat % 2 ^ 127 = t'.toNat % 2 ^ 127) (b : Byte) :
    mac t b = mac t' b :=
  BitVec.eq_of_toNat_eq (Nat.ModEq.eq_of_lt_of_lt (mac_modEq_succ h b) (mac t b).isLt (mac t' b).isLt)

theorem mac_add_two_pow_127 (t : Total) (b : Byte) :
    mac t b = mac (t + 0x80000000000000000000000000000000#128) b := by
  apply mac_congr_of_low127
  rw [BitVec.toNat_add, BitVec.toNat_ofNat]
  omega

theorem mac_toNat_mod_two (t : Total) (b : Byte) : (mac t b).toNat % 2 = (digit8 b).toNat % 2 := by
  have hlast : (mac t b).toNat % 2 = (mac 0#128 b).toNat % 2 := foldl_mac_modEq_length [b] t 0#128
  rw [hlast, mac_zero, digit_toNat]

/-- Settles O16: 0 and 2^127 are the two totals that `mac` does not tell apart. -/
theorem macProperties : Obligations.MacProperties := by
  unfold Obligations.MacProperties
  refine ⟨mac_injective, mac_add_two_pow_127, fun b hinjective => ?_, fun t t' b h => mac_congr_of_low127 h b,
    fun t b => ⟨?_, mac_toNat_mod_two t b⟩, foldl_mac_modEq_length, mac_zero, mac_zeroCode⟩
  · exact absurd (hinjective (mac_add_two_pow_127 0#128 b)) (by decide)
  · rw [← BitVec.testBit_toNat, ← BitVec.testBit_toNat, Nat.testBit_zero, Nat.testBit_zero, mac_toNat_mod_two]

-- `ACC` in a state (41_multiply_add.md R85)

theorem decode_eq_acc_iff {w : CmdWord} {b : Byte} : decode w = .acc b ↔ w = accWord b := by
  refine ⟨fun h => ?_, fun h => h ▸ decode_accWord b⟩
  obtain ⟨-, hacc, -, -⟩ := decode_iff_opField w
  have hop := hacc.mp ⟨b, h⟩
  rw [decode_of_op_acc hop] at h
  cases h
  exact (accWord_dataField hop).symm

theorem decode_eq_acc_iff_toNat (w : CmdWord) (b : Byte) : decode w = .acc b ↔ w.toNat = 0x100 + b.toNat := by
  rw [decode_eq_acc_iff, ← BitVec.toNat_inj, accWord_toNat]

/-- `ACC` writes the new value of `mac` and nothing else, in whichever form that value is given. -/
theorem exec_acc_of_mac_eq {b : Byte} {s : State} {v : Total} (h : mac s.total b = v) :
    exec (.acc b) s = .next (s.setTotal v) := by
  rw [← h]
  rfl

theorem mac_toNat_int (t : Total) (b : Byte) :
    ((mac t b).toNat : Int) = (10 * (t.toNat : Int) + ((b.toNat : Int) - 48) % 256) % 2 ^ 128 := by
  rw [mac_toNat, ← digit8_toNat_int]
  push_cast
  rfl

/-- Settles O10: each clause names the value of `mac` in another form. -/
theorem accMultipliesAndAdds : Obligations.AccMultipliesAndAdds := by
  unfold Obligations.AccMultipliesAndAdds
  refine ⟨decode_eq_acc_iff_toNat, fun b s => ⟨exec_acc_of_mac_eq rfl, exec_acc_of_mac_eq rfl,
    exec_acc_of_mac_eq (mac_zeroCode s.total), exec_acc_of_mac_eq (s := s.setTotal 0#128) (mac_zero b), ?_⟩,
    mac_toNat_int⟩
  have hword : decode 0x132#10 = .acc 0x32#8 := decode_accWord 0x32#8
  have hvalue : mac 1#128 0x32#8 = 12#128 := by decide
  rw [hword]
  exact exec_acc_of_mac_eq (s := s.setTotal 1#128) hvalue

end Sys2Proof.Machine

/-! PROOFS. The result command `RD` (42_result.md). The idea: `RD` leaves `total` as it is, so that a run cut at an `RD`
goes on as if the `RD` were absent, with one result in between; and a command only adds behind the results that wait. -/

namespace Sys2Proof.Machine

open Sys2Proof.Config (Params)

-- A run with an `RD` in it (42_result.md R101)

theorem run_cons_rd (t : Total) (cs : List Instr) : run t (.rd :: cs) = ((run t cs).1, t :: (run t cs).2) := rfl

/-- Wherever an `RD` stands, the run is that of the rest, with the `total` reached there among the results. -/
theorem run_append_cons_rd (t : Total) (cs ds : List Instr) :
    run t (cs ++ .rd :: ds) =
      ((run t (cs ++ ds)).1, (run t cs).2 ++ (run t cs).1 :: (run (run t cs).1 ds).2) := by
  rw [run_append, run_append, run_cons_rd]

/-- `RD` is the one command that emits, and it emits one result. -/
theorem commandStep_results_length (t : Total) (i : Instr) :
    (commandStep t i).2.toList.length = if i = .rd then 1 else 0 := by
  cases i with
  | clr => rfl
  | acc b => rfl
  | rd => rfl
  | reserved data => rfl

theorem run_results_length (t : Total) (cs : List Instr) :
    (run t cs).2.length = cs.countP (fun i => decide (i = .rd)) := by
  induction cs generalizing t with
  | nil => rfl
  | cons c cs ih =>
    rw [run, List.length_append, commandStep_results_length, ih, List.countP_cons, Nat.add_comm]
    simp

/-- Settles O18: what follows the `RD` runs from the same `total` with it and without it. -/
theorem rdLaws : Obligations.RdLaws := by
  unfold Obligations.RdLaws
  refine ⟨fun t c d => ?_, fun t => rfl, run_results_length⟩
  rw [run_append_cons_rd]
  refine ⟨rfl, (run t c).2, (run (run t c).1 d).2, ?_, rfl, rfl⟩
  rw [run_append]

-- `RD` in a state (42_result.md R100, 20_memory.md R49)

/-- The words of `RD` are those whose `op` field is 2. -/
theorem decode_eq_rd_iff_toNat (w : CmdWord) : decode w = .rd ↔ 0x200 ≤ w.toNat ∧ w.toNat ≤ 0x2FF := by
  obtain ⟨-, -, hrd, -⟩ := decode_iff_opField w
  have hfields := toNat_eq_fields w
  have hdata := (dataField w).isLt
  have htwo : (0b10#2).toNat = 2 := rfl
  rw [hrd, ← BitVec.toNat_inj]
  omega

theorem exec_rd (s : State) : exec .rd s = .next (s.emit s.total) := rfl

/-- A result emitted while none waits stands on the result port. -/
theorem emit_offered {s : State} (h : s.resWaiting = []) (p : Params) (v : Total) :
    resValid (s.emit v) = true ∧ res p (s.emit v) = v := by
  have hwaiting : (s.emit v).resWaiting = [v] := by rw [State.emit_resWaiting, h, List.nil_append]
  exact ⟨resValid_iff.mpr ⟨v, [], hwaiting⟩, res_of_resWaiting_cons hwaiting⟩

/-- No command alters a result that waits. -/
theorem exec_resWaiting_prefix {i : Instr} {s t : State} (h : exec i s = .next t) :
    s.resWaiting <+: t.resWaiting := by
  obtain ⟨-, hwaiting, -⟩ := exec_next_fields h
  rw [hwaiting]
  exact List.prefix_append _ _

/-- Settles O17. -/
theorem rdEmitsTotal : Obligations.RdEmitsTotal := by
  unfold Obligations.RdEmitsTotal
  exact ⟨decode_eq_rd_iff_toNat, rfl, fun s => ⟨exec_rd s, fun p h => emit_offered h p s.total,
    fun i t => exec_resWaiting_prefix (s := s.emit s.total)⟩⟩

end Sys2Proof.Machine

/-! PROOFS. The transaction level (43_transactions.md). Two ideas carry it. A run is cut into its parts, so that a
sequence of transactions is one transaction after another. And `parse` is an exact natural number, `exactValue`, reduced
once modulo 2^128: every statement about values is one about that number. -/

namespace Sys2Proof.Machine

-- Runs and transactions (43_transactions.md R106, R107)

/-- Settles O22. -/
theorem runsCompose : Obligations.RunsCompose := by
  unfold Obligations.RunsCompose
  exact ⟨fun t => rfl, fun t => ⟨rfl, fun b => rfl, rfl⟩, run_append⟩

/-- Bytes and an `RD` from any start emit the total they lead to. -/
theorem run_map_acc_append_rd (t : Total) (s : List Byte) :
    run t (s.map .acc ++ [.rd]) = (s.foldl mac t, [s.foldl mac t]) := by
  rw [run_append, run_map_acc]
  rfl

theorem run_transaction (t : Total) (s : List Byte) : run t (transaction s) = (parse s, [parse s]) :=
  (run_cons_clr t _).trans (run_map_acc_append_rd Config.initTotal s)

theorem run_transactions_results (t : Total) (strings : List (List Byte)) :
    (run t (strings.flatMap transaction)).2 = strings.map parse := by
  induction strings generalizing t with
  | nil => rfl
  | cons s strings ih =>
    rw [List.flatMap_cons, run_append, run_transaction, ih]
    rfl

theorem commands_transactionWords (s : List Byte) : commands (transactionWords s) = transaction s :=
  map_decode_lineWords (.parse s)

theorem transaction_length (s : List Byte) : (transaction s).length = s.length + 2 := by
  simp [transaction]

theorem transactionWords_length (s : List Byte) : (transactionWords s).length = s.length + 2 := by
  rw [← transaction_length, ← commands_transactionWords, commands, List.length_map]

-- Framed sequences (43_transactions.md R106, 70_reset_and_hazards.md R152 (5))

/-- An open transaction accepts any bytes and is closed by an `RD`. -/
theorem framed_map_acc_append_rd (s : List Byte) (cs : List Instr) :
    framed true (s.map .acc ++ .rd :: cs) = framed false cs := by
  induction s with
  | nil => rfl
  | cons b s ih => exact ih

theorem framed_transaction_append (s : List Byte) (cs : List Instr) :
    framed false (transaction s ++ cs) = framed false cs := by
  rw [← framed_map_acc_append_rd s cs, transaction, List.cons_append, List.append_assoc]
  rfl

theorem framed_transactions (strings : List (List Byte)) : framed false (strings.flatMap transaction) = true := by
  induction strings with
  | nil => rfl
  | cons s strings ih => rw [List.flatMap_cons, framed_transaction_append, ih]

/-- What remains of an open transaction is its bytes and its `RD`, and framed commands follow. -/
theorem exists_bytes_of_framed_open {cs : List Instr} (h : framed true cs = true) :
    ∃ (s : List Byte) (ds : List Instr), cs = s.map .acc ++ .rd :: ds ∧ framed false ds = true := by
  induction cs with
  | nil => simp [framed] at h
  | cons c cs ih =>
    cases c with
    | clr => simp [framed] at h
    | acc b =>
      obtain ⟨s, ds, rfl, hds⟩ := ih h
      exact ⟨b :: s, ds, rfl, hds⟩
    | rd => exact ⟨[], cs, rfl, h⟩
    | reserved data => simp [framed] at h

/-- Framed commands are none, or begin with a whole transaction. -/
theorem framed_cases {cs : List Instr} (h : framed false cs = true) :
    cs = [] ∨ ∃ s ds, cs = transaction s ++ ds ∧ framed false ds = true := by
  cases cs with
  | nil => exact .inl rfl
  | cons c cs =>
    cases c with
    | clr =>
      obtain ⟨s, ds, rfl, hds⟩ := exists_bytes_of_framed_open h
      exact .inr ⟨s, ds, by simp [transaction], hds⟩
    | acc b => simp [framed] at h
    | rd => simp [framed] at h
    | reserved data => simp [framed] at h

theorem exists_strings_of_framed (cs : List Instr) (h : framed false cs = true) :
    ∃ strings : List (List Byte), cs = strings.flatMap transaction := by
  rcases framed_cases h with rfl | ⟨s, ds, hcs, hds⟩
  · exact ⟨[], rfl⟩
  · have hshorter : ds.length < cs.length := by
      rw [hcs, List.length_append, transaction_length]
      omega
    obtain ⟨strings, hstrings⟩ := exists_strings_of_framed ds hds
    exact ⟨s :: strings, by rw [hcs, hstrings, List.flatMap_cons]⟩
termination_by cs.length

theorem framed_iff_transactions (cs : List Instr) :
    framed false cs = true ↔ ∃ strings : List (List Byte), cs = strings.flatMap transaction := by
  refine ⟨exists_strings_of_framed cs, ?_⟩
  rintro ⟨strings, rfl⟩
  exact framed_transactions strings

/-- Settles O21. -/
theorem transactionComputesParse : Obligations.TransactionComputesParse := by
  unfold Obligations.TransactionComputesParse
  exact ⟨fun s => ⟨commands_transactionWords s, rfl, transactionWords_length s⟩, run_transaction,
    framed_iff_transactions, run_transactions_results⟩

/-- Settles O23. -/
theorem emptyInputGivesZero : Obligations.EmptyInputGivesZero := by
  unfold Obligations.EmptyInputGivesZero
  exact ⟨rfl, rfl, fun t => run_transaction t [], by decide⟩

/-- Settles O28. -/
theorem nonDigitInputIsDetermined : Obligations.NonDigitInputIsDetermined := by
  unfold Obligations.NonDigitInputIsDetermined
  exact ⟨rfl, parse_concat, run_transaction, by decide, by decide, by decide, by decide⟩

-- Transactions on the ports (70_reset_and_hazards.md R153)

/-- Settles O48: the finished run is the run of the accepted commands, which are one transaction. -/
theorem parseOnThePorts : Obligations.ParseOnThePorts := by
  unfold Obligations.ParseOnThePorts
  intro p pins s t text hclean hrst hrun hover haccepted
  have hfold := finishedRun_eq_runAfter hclean hrst hrun hover haccepted
  rw [commands_transactionWords, runAfter, run_transaction] at hfold
  obtain ⟨htotal, htaken⟩ := Prod.mk.inj hfold
  exact ⟨htaken, htotal⟩

/-- Settles O49: framed commands are a sequence of transactions, and each emits `parse` of its string. -/
theorem framedUseParsesEveryString : Obligations.FramedUseParsesEveryString := by
  unfold Obligations.FramedUseParsesEveryString
  intro p pins s t ws hclean hrst hrun hover haccepted hframed
  obtain ⟨strings, hstrings⟩ := exists_strings_of_framed (commands ws) hframed
  have hfold := finishedRun_eq_runAfter hclean hrst hrun hover haccepted
  rw [hstrings, runAfter, run_transactions_results] at hfold
  obtain ⟨-, htaken⟩ := Prod.mk.inj hfold
  exact ⟨strings, hstrings, htaken⟩

-- The closed form (43_transactions.md R108)

/-- The number that the digit values of a byte string spell in radix ten, not reduced. -/
def exactValue (s : List Byte) : Nat := Nat.ofDigits 10 (s.map fun b => (digit8 b).toNat).reverse

theorem exactValue_append (s u : List Byte) :
    exactValue (s ++ u) = exactValue s * 10 ^ u.length + exactValue u := by
  simp only [exactValue, List.map_append, List.reverse_append, Nat.ofDigits_append, List.length_reverse,
    List.length_map]
  ring

theorem exactValue_singleton (b : Byte) : exactValue [b] = (digit8 b).toNat := by
  simp [exactValue]

theorem exactValue_cons (b : Byte) (s : List Byte) :
    exactValue (b :: s) = (digit8 b).toNat * 10 ^ s.length + exactValue s := by
  rw [← exactValue_singleton, ← exactValue_append, List.singleton_append]

theorem exactValue_concat (s : List Byte) (b : Byte) :
    exactValue (s ++ [b]) = 10 * exactValue s + (digit8 b).toNat := by
  rw [exactValue_append, exactValue_singleton, List.length_singleton, pow_one, Nat.mul_comm]

/-- The wraps of the single steps add up to one reduction at the end. -/
theorem parse_eq_ofNat_exactValue (s : List Byte) : parse s = BitVec.ofNat 128 (exactValue s) := by
  induction s using List.reverseRecOn with
  | nil => rfl
  | append_singleton s b ih =>
    apply BitVec.eq_of_toNat_eq
    rw [parse_concat, mac_toNat, ih, exactValue_concat, BitVec.toNat_ofNat, BitVec.toNat_ofNat]
    omega

theorem parse_toNat (s : List Byte) : (parse s).toNat = exactValue s % 2 ^ 128 := by
  rw [parse_eq_ofNat_exactValue, BitVec.toNat_ofNat]

theorem exactValue_eq_sum (s : List Byte) :
    exactValue s = ∑ i : Fin s.length, (digit8 (s.get i)).toNat * 10 ^ (s.length - 1 - i.val) := by
  induction s with
  | nil => rfl
  | cons b s ih =>
    have hshift (i : Fin s.length) : s.length - (i.val + 1) = s.length - 1 - i.val := by omega
    simp [exactValue_cons, ih, Fin.sum_univ_succ, hshift]

/-- Settles O24. -/
theorem parseClosedForm : Obligations.ParseClosedForm := by
  unfold Obligations.ParseClosedForm
  intro s
  rw [parse_toNat, exactValue_eq_sum]

-- Decimal digit strings (43_transactions.md R109, R110)

/-- On true digits the digit values are the decimal digits, so the exact value is the number spelt. -/
theorem exactValue_of_trueDigits {s : List Byte} (h : ∀ b ∈ s, trueDigit b = true) :
    exactValue s = Nat.ofDigits 10 (s.map fun b => b.toNat - 48).reverse := by
  have hdigits : (s.map fun b => (digit8 b).toNat) = s.map fun b => b.toNat - 48 := by
    refine List.map_congr_left fun b hb => ?_
    obtain ⟨hlow, -⟩ := of_decide_eq_true (h b hb)
    exact digit8_toNat_of_ge hlow
  rw [exactValue, hdigits]

/-- The decimal string of a number spells it. -/
theorem exactValue_decimal (n : Nat) :
    exactValue ((Nat.digits 10 n).reverse.map fun d => BitVec.ofNat 8 (d + 48)) = n := by
  have hdigits : (Nat.digits 10 n).map ((fun b => (digit8 b).toNat) ∘ fun d => BitVec.ofNat 8 (d + 48)) =
      (Nat.digits 10 n).map id := by
    refine List.map_congr_left fun d hd => ?_
    rw [Function.comp_apply, Nat.add_comm]
    exact digit8_digitByte (Nat.digits_lt_base (by norm_num) hd)
  rw [exactValue, List.map_map, List.map_reverse, List.reverse_reverse, hdigits, List.map_id, Nat.ofDigits_digits]

theorem exactValue_zeros (k : Nat) : exactValue (List.replicate k 0x30#8) = 0 := by
  have hzero : (digit8 0x30#8).toNat = 0 := by decide
  simp [exactValue, hzero, Nat.ofDigits_replicate_zero]

/-- Leading zeros cost nothing. -/
theorem exactValue_zeros_append (k : Nat) (s : List Byte) :
    exactValue (List.replicate k 0x30#8 ++ s) = exactValue s := by
  rw [exactValue_append, exactValue_zeros, Nat.zero_mul, Nat.zero_add]

/-- Settles O25. -/
theorem digitStringsReadExactly : Obligations.DigitStringsReadExactly := by
  unfold Obligations.DigitStringsReadExactly
  refine ⟨fun s h => ?_, fun zeros n hn => ?_, ?_⟩
  · rw [parse_toNat, exactValue_of_trueDigits h]
  · rw [parse_toNat, exactValue_zeros_append, exactValue_decimal, Nat.mod_eq_of_lt hn]
  · norm_num

/-- Settles O26. -/
theorem largeDigitStringsWrap : Obligations.LargeDigitStringsWrap := by
  unfold Obligations.LargeDigitStringsWrap
  refine ⟨fun s h => ?_, ?_, ?_, ?_, by decide, ?_⟩
  · rw [parse_toNat, exactValue_of_trueDigits h, ne_eq, Nat.mod_eq_iff_lt (by norm_num), not_lt]
    exact ⟨Iff.rfl, fun _ => rfl⟩
  · rw [parse_eq_ofNat_exactValue, exactValue_decimal]
    decide
  · rw [parse_eq_ofNat_exactValue, exactValue_decimal]
    decide
  · rw [parse_eq_ofNat_exactValue, exactValue_cons, exactValue_zeros, List.length_replicate]
    decide
  · rw [parse_eq_ofNat_exactValue, exactValue_zeros_append, ← parse_eq_ofNat_exactValue]
    decide

-- Concatenation, and how far a byte reaches (43_transactions.md R111, R113)

theorem parse_append (s u : List Byte) : parse (s ++ u) = u.foldl mac (parse s) := List.foldl_append

theorem parse_append_toNat (s u : List Byte) :
    (parse (s ++ u)).toNat = ((parse s).toNat * 10 ^ u.length + (parse u).toNat) % 2 ^ 128 := by
  rw [parse_toNat, parse_toNat, parse_toNat, exactValue_append]
  exact ((Nat.mod_modEq _ _).symm.mul_right _).add (Nat.mod_modEq _ _).symm

/-- After 128 bytes the start value is forgotten. -/
theorem foldl_mac_eq_of_length {s : List Byte} (h : 128 ≤ s.length) (t t' : Total) : s.foldl mac t = s.foldl mac t' := by
  have hlow := (foldl_mac_modEq_length s t t').of_dvd (pow_dvd_pow 2 h)
  exact BitVec.eq_of_toNat_eq (hlow.eq_of_lt_of_lt (BitVec.isLt _) (BitVec.isLt _))

/-- Bytes in front of 128 others have no influence. -/
theorem parse_append_of_length (s : List Byte) {u : List Byte} (h : 128 ≤ u.length) : parse (s ++ u) = parse u := by
  rw [parse_append]
  exact foldl_mac_eq_of_length h _ _

/-- Equal bytes in front of 128 others are superfluous. -/
theorem parse_replicate_of_length {k : Nat} (h : 128 ≤ k) (b : Byte) :
    parse (List.replicate k b) = parse (List.replicate 128 b) := by
  obtain ⟨j, rfl⟩ := Nat.exists_eq_add_of_le' h
  rw [List.replicate_add, parse_append_of_length _ (List.length_replicate.ge)]

theorem parse_drop_of_length {s : List Byte} {k : Nat} (h : k + 128 ≤ s.length) : parse s = parse (s.drop k) := by
  have hlength : 128 ≤ (s.drop k).length := by
    rw [List.length_drop]
    omega
  rw [← parse_append_of_length (s.take k) hlength, List.take_append_drop]

/-- The low bits after a string `v` are decided by `v`, whatever stands before it. -/
theorem parse_append_low (u u' v : List Byte) :
    (parse (u ++ v)).toNat % 2 ^ v.length = (parse (u' ++ v)).toNat % 2 ^ v.length := by
  rw [parse_append, parse_append]
  exact foldl_mac_modEq_length v _ _

/-- Settles O27. -/
theorem onlyLastBytesMatter : Obligations.OnlyLastBytesMatter := by
  unfold Obligations.OnlyLastBytesMatter
  refine ⟨fun s h => parse_drop_of_length (by omega), fun u v b b' => ?_, parse_append_low,
    fun s t t' h => foldl_mac_eq_of_length h t t', parse_replicate_of_length (by norm_num) _⟩
  simpa using parse_append_low (u ++ [b]) (u ++ [b']) v

/-- An `RD` within a string emits what has been read so far, and the string goes on. -/
theorem run_transaction_continued (t : Total) (s u : List Byte) :
    run t (.clr :: (s.map .acc ++ .rd :: (u.map .acc ++ [.rd]))) = (parse (s ++ u), [parse s, parse (s ++ u)]) := by
  rw [run_cons_clr, run_append, run_map_acc, run_cons_rd, run_map_acc_append_rd, parse_append]
  rfl

/-- Settles O29: whatever the bytes of a transaction are made of, it emits `parse` of them all. -/
theorem prefixesAndConcatenation : Obligations.PrefixesAndConcatenation := by
  unfold Obligations.PrefixesAndConcatenation
  refine ⟨fun t s k => run_transaction t (s.take k), run_transaction_continued, parse_append_toNat, fun t => ?_,
    fun t s u m _ _ _ => run_transaction t m⟩
  have hfour : parse [0x34#8] = 4#128 := by decide
  have hboth : parse [0x34#8, 0x32#8] = 42#128 := by decide
  rw [← hfour, ← hboth]
  exact run_transaction_continued t [0x34#8] [0x32#8]

-- The two stress inputs (43_transactions.md R116, 95_test_vectors.md V4.13, V4.14)

/-- A repeated byte spells a geometric sum. -/
theorem exactValue_replicate (k : Nat) (b : Byte) :
    9 * exactValue (List.replicate k b) + (digit8 b).toNat = (digit8 b).toNat * 10 ^ k := by
  induction k with
  | zero => simp [exactValue]
  | succ k ih =>
    rw [List.replicate_succ', exactValue_concat, pow_succ]
    linarith

/-- The bytes from 128 on have the digit values 80, 81, ..., whose weighted sum telescopes in the same way, twice. -/
theorem exactValue_upperBytes {k : Nat} (hk : k ≤ 128) :
    81 * exactValue ((List.range' 128 k).map (BitVec.ofNat 8)) + 9 * k + 721 = 721 * 10 ^ k := by
  induction k with
  | zero => rfl
  | succ k ih =>
    have hdigit : (digit8 (BitVec.ofNat 8 (128 + k))).toNat = 80 + k := by
      rw [digit8_toNat, BitVec.toNat_ofNat]
      omega
    rw [List.range'_1_concat, List.map_append, List.map_singleton, exactValue_concat, hdigit, pow_succ]
    have hfirst := ih (by omega)
    linarith

theorem parse_replicate_z : parse (List.replicate 2000 0x7A#8) = 0x8E38E38E38E38E38E38E38E38E38E386#128 := by
  have hsum := exactValue_replicate 128 0x7A#8
  have hdigit : (digit8 0x7A#8).toNat = 74 := by decide
  rw [parse_replicate_of_length (by norm_num), parse_eq_ofNat_exactValue]
  apply BitVec.eq_of_toNat_eq
  rw [BitVec.toNat_ofNat, BitVec.toNat_ofNat]
  omega

theorem parse_all_bytes :
    parse ((List.range 256).map (BitVec.ofNat 8)) = 0x329161F9ADD3C0CA4587E6B74F0328FF#128 := by
  have hsum := exactValue_upperBytes (le_refl 128)
  have hsplit : List.range 256 = List.range 128 ++ List.range' 128 128 := by
    rw [List.range_eq_range', List.range_eq_range', List.range'_append_1]
  rw [hsplit, List.map_append, parse_append_of_length _ (by rw [List.length_map, List.length_range']),
    parse_eq_ofNat_exactValue]
  generalize exactValue _ = value at hsum ⊢
  apply BitVec.eq_of_toNat_eq
  rw [BitVec.toNat_ofNat, BitVec.toNat_ofNat]
  omega

/-- Settles O31: modulo 2^128 each value is the solution of the linear equation of its sum. -/
theorem longInputsComplete : Obligations.LongInputsComplete := by
  unfold Obligations.LongInputsComplete
  refine ⟨transaction_length, fun t => ?_, parse_all_bytes⟩
  rw [run_transaction, parse_replicate_z]

end Sys2Proof.Machine

/-! PROOFS. Exceptions (60_exceptions.md). The CORE has none, so an edge after a reset always has a next state (R120): the
accumulator stage lets its oldest command wait or executes it, and every command completes. And the two handshakes do not
interact at an edge (R123): the `total` an edge leaves is `stageTotal`, in which no pin and no result occurs. -/

namespace Sys2Proof.Machine

open Sys2Proof.Config (Params)

-- No edge stops the machine (60_exceptions.md R120, 70_reset_and_hazards.md R147)

theorem executeOldest_of_waits {p : Params} {c : InFlight} {rest : List InFlight} {s : State}
    (hq : s.inFlight = c :: rest) (hwaits : (stageHolds p c s || stalls p (decode c.word) s) = true) :
    executeOldest p s = .next (s.setInFlight (ageAll (c :: rest))) := by
  simp only [executeOldest, hq, hwaits, if_true]

/-- The accumulator stage always has a next state: a command that neither waits nor stalls completes. -/
theorem executeOldest_completes (p : Params) (s : State) :
    ∃ t, executeOldest p s = .next t ∧ t.resetSeen = s.resetSeen := by
  cases hq : s.inFlight with
  | nil => exact ⟨s, executeOldest_of_nothing_inFlight p hq, rfl⟩
  | cons c rest =>
    cases hwaits : stageHolds p c s || stalls p (decode c.word) s with
    | true => exact ⟨_, executeOldest_of_waits hq hwaits, rfl⟩
    | false =>
      obtain ⟨hhold, hstall⟩ := Bool.or_eq_false_iff.mp hwaits
      have hexec := everyCommandCompletes (decode c.word) (s.setInFlight (ageAll rest))
      exact ⟨_, (executeOldest_of_neither_held_nor_stalled hq hhold hstall).trans hexec, rfl⟩

theorem acceptCommand_resetSeen (p : Params) (pin : PortIn) (before s : State) :
    (acceptCommand p pin before s).resetSeen = s.resetSeen := by
  rcases acceptCommand_cases p pin before s with ⟨-, h⟩ | ⟨-, h⟩
  · rw [h]
  · rw [h, pushCommand_resetSeen]

/-- After a reset every edge has a next state, which is again one after a reset. -/
theorem edge_completes (p : Params) (pin : PortIn) {s : State} (hseen : s.resetSeen = true) :
    ∃ t, edge p pin s = .next t ∧ t.resetSeen = true := by
  cases hrst : pin.rst with
  | true => exact ⟨resetEdge s, edge_of_rst hrst p s, resetEdge_resetSeen s⟩
  | false =>
    obtain ⟨u, hexec, hu⟩ := executeOldest_completes p (takeResult pin s)
    obtain ⟨-, -, htake, -⟩ := takeResult_frame pin s
    refine ⟨_, edge_of_executeOldest hrst hseen hexec, ?_⟩
    rw [State.tick_resetSeen, acceptCommand_resetSeen, hu, htake, hseen]

theorem edges_cons_of_edge {p : Params} {pin : PortIn} {s u : State} (h : edge p pin s = .next u)
    (pins : List PortIn) : edges p (pin :: pins) s = edges p pins u := by
  simp only [edges, h]

/-- Settles O51, by induction on the list of edges. -/
theorem neverStopsAfterReset : Obligations.NeverStopsAfterReset := by
  unfold Obligations.NeverStopsAfterReset
  intro p pins s hseen
  induction pins generalizing s with
  | nil => exact ⟨s, rfl, hseen⟩
  | cons pin pins ih =>
    obtain ⟨u, hedge, hu⟩ := edge_completes p pin hseen
    rw [edges_cons_of_edge hedge]
    exact ih u hu

-- The two handshakes at one edge (60_exceptions.md R123)

/-- The `total` the accumulator stage leaves. Whether an `RD` stalls does not occur in it: executed or not, it leaves
`total` alone (42_result.md R100). -/
def stageTotal (p : Params) (s : State) : Total :=
  match s.inFlight with
  | [] => s.total
  | c :: _ => if stageHolds p c s then s.total else (commandStep s.total (decode c.word)).1

theorem stageTotal_of_nothing_inFlight (p : Params) {s : State} (hq : s.inFlight = []) : stageTotal p s = s.total := by
  simp [stageTotal, hq]

theorem stageTotal_of_held {p : Params} {c : InFlight} {rest : List InFlight} {s : State}
    (hq : s.inFlight = c :: rest) (hhold : stageHolds p c s = true) : stageTotal p s = s.total := by
  simp [stageTotal, hq, hhold]

theorem stageTotal_of_not_held {p : Params} {c : InFlight} {rest : List InFlight} {s : State}
    (hq : s.inFlight = c :: rest) (hhold : stageHolds p c s = false) :
    stageTotal p s = (commandStep s.total (decode c.word)).1 := by
  simp [stageTotal, hq, hhold]

/-- A command that stalls would not have changed `total`, since it is an `RD`. -/
theorem commandStep_total_of_stalls {p : Params} {i : Instr} {s : State} (h : stalls p i s = true) (t : Total) :
    (commandStep t i).1 = t := by
  obtain ⟨rfl, -⟩ := stalls_iff.mp h
  rfl

theorem executeOldest_total {p : Params} {s t : State} (h : executeOldest p s = .next t) :
    t.total = stageTotal p s := by
  rcases executeOldest_cases h with ⟨hq, rfl⟩ | ⟨c, rest, hq, hwaits, rfl⟩ | ⟨c, rest, hq, hhold, -, hexec⟩
  · rw [stageTotal_of_nothing_inFlight p hq]
  · cases hhold : stageHolds p c s with
    | true => rw [stageTotal_of_held hq hhold, State.setInFlight_total]
    | false =>
      have hstall : stalls p (decode c.word) s = true := hwaits.resolve_left (by simp [hhold])
      rw [stageTotal_of_not_held hq hhold, commandStep_total_of_stalls hstall, State.setInFlight_total]
  · obtain ⟨htotal, -⟩ := exec_next_fields hexec
    rw [stageTotal_of_not_held hq hhold, htotal, State.setInFlight_total]

theorem takeResult_stageTotal (p : Params) (pin : PortIn) (s : State) :
    stageTotal p (takeResult pin s) = stageTotal p s := by
  obtain ⟨htotal, hflight, -, -, hedge, -⟩ := takeResult_frame pin s
  simp only [stageTotal, htotal, hflight, stageHolds_congr hedge]

theorem acceptCommand_total (p : Params) (pin : PortIn) (before s : State) :
    (acceptCommand p pin before s).total = s.total := by
  rcases acceptCommand_cases p pin before s with ⟨-, h⟩ | ⟨-, h⟩
  · rw [h]
  · rw [h, pushCommand_total]

/-- An edge without reset leaves a `total` that no other pin has an influence on. -/
theorem edge_total {p : Params} {pin : PortIn} {s t : State} (h : edge p pin s = .next t) (hrst : pin.rst = false)
    (hseen : s.resetSeen = true) : t.total = stageTotal p s := by
  obtain ⟨u, hexec, rfl⟩ := edge_next_parts hrst hseen h
  rw [State.tick_total, acceptCommand_total, executeOldest_total hexec, takeResult_stageTotal]

theorem edge_accepted {p : Params} {pin : PortIn} {s t : State} (h : edge p pin s = .next t) (hrst : pin.rst = false)
    (hseen : s.resetSeen = true) :
    t.accepted = if accepts p pin s then s.accepted ++ [pin.cmd] else s.accepted := by
  obtain ⟨u, -, -, haccepts, hrefuses⟩ := commandPortAccepts.2 p pin s t hrst hseen h
  split
  · next hyes => exact (haccepts hyes).1
  · next hno => exact (hrefuses (Bool.not_eq_true _ ▸ hno)).1

/-- The results an edge leaves are those the accumulator stage leaves: the acceptance comes after it. -/
theorem edge_results_eq {p : Params} {pin : PortIn} {s t u : State} (h : edge p pin s = .next t)
    (hrst : pin.rst = false) (hseen : s.resetSeen = true) (hexec : executeOldest p (takeResult pin s) = .next u) :
    t.taken = u.taken ∧ t.resWaiting = u.resWaiting := by
  obtain rfl := Host.Outcome.next.inj ((edge_of_executeOldest hrst hseen hexec).symm.trans h)
  exact acceptCommand_results p pin s u

/-- The result port does not look at the offer. -/
theorem takeResult_with_cmdValid (pin : PortIn) (offered : Bool) (s : State) :
    takeResult { pin with cmdValid := offered } s = takeResult pin s := rfl

/-- The command port does not look at the host's readiness for a result. -/
theorem accepts_with_resReady (p : Params) (pin : PortIn) (ready : Bool) (s : State) :
    accepts p { pin with resReady := ready } s = accepts p pin s := rfl

/-- Settles O39: with or without the offer the stage starts from the same state, and whether a command is accepted does
not depend on the transfer. -/
theorem acceptanceAndTransferIndependent : Obligations.AcceptanceAndTransferIndependent := by
  unfold Obligations.AcceptanceAndTransferIndependent
  intro p pin s t t' hrst hseen
  refine ⟨fun h h' => ?_, fun h h' => ?_⟩
  · obtain ⟨u, hexec, -⟩ := executeOldest_completes p (takeResult pin s)
    have hstage (offered : Bool) : executeOldest p (takeResult { pin with cmdValid := offered } s) = .next u := by
      rw [takeResult_with_cmdValid, hexec]
    obtain ⟨htaken, hwaiting⟩ := edge_results_eq h hrst hseen (hstage true)
    obtain ⟨htaken', hwaiting'⟩ := edge_results_eq h' hrst hseen (hstage false)
    exact ⟨htaken.trans htaken'.symm, hwaiting.trans hwaiting'.symm,
      (edge_total h hrst hseen).trans (edge_total h' hrst hseen).symm⟩
  · refine ⟨?_, (edge_total h hrst hseen).trans (edge_total h' hrst hseen).symm⟩
    rw [edge_accepted h hrst hseen, edge_accepted h' hrst hseen, accepts_with_resReady p pin true,
      accepts_with_resReady p pin false]

end Sys2Proof.Machine

/-! PROOFS. Reset (70_reset_and_hazards.md R140 to R143), the finished run (R153, R154), the admitted sequences (R152) and
the list of holds (R149). The idea of the first: a core as reset leaves it changes at an edge without an offer only in its
two counts, and the recovery is over once the count since reset has reached `CMD_LATENCY_MAX`. -/

namespace Sys2Proof.Machine

open Sys2Proof.Config (Params)

-- Reset and the recovery (70_reset_and_hazards.md R140, R141, R143)

theorem takeResult_of_nothing_waiting (pin : PortIn) {s : State} (h : s.resWaiting = []) : takeResult pin s = s :=
  takeResult_of_not_takes (by simp [takes, resValid, h])

theorem clean_iff {s : State} :
    s.clean = true ↔ s.resetSeen = true ∧ s.inFlight = [] ∧ s.resWaiting = [] := by
  simp [State.clean]

/-- A clean core to which nothing is offered keeps what it has, whatever stands on the other pins. -/
theorem edge_of_clean {pin : PortIn} {s : State} (hclean : s.clean = true) (hrst : pin.rst = false)
    (hvalid : pin.cmdValid = false) (p : Params) : edge p pin s = .next s.tick := by
  obtain ⟨hseen, hq, hw⟩ := clean_iff.mp hclean
  have hexec : executeOldest p (takeResult pin s) = .next s := by
    rw [takeResult_of_nothing_waiting pin hw, executeOldest_of_nothing_inFlight p hq]
  rw [edge_of_executeOldest hrst hseen hexec, acceptCommand_of_not_cmdValid hvalid]

/-- A core with nothing in it, no history, and the `total` of reset. -/
def State.AsReset (s : State) : Prop :=
  s.clean = true ∧ s.total = Config.resetTotal ∧ s.accepted = [] ∧ s.taken = []

theorem resetEdge_asReset (s : State) : (resetEdge s).AsReset := ⟨rfl, rfl, rfl, rfl⟩

theorem edge_asReset {p : Params} {pin : PortIn} {s t : State} (hs : s.AsReset) (hvalid : pin.cmdValid = false)
    (h : edge p pin s = .next t) : t.AsReset := by
  cases hrst : pin.rst with
  | true =>
    obtain rfl := Host.Outcome.next.inj ((edge_of_rst hrst p s).symm.trans h)
    exact resetEdge_asReset s
  | false =>
    obtain rfl := Host.Outcome.next.inj ((edge_of_clean hs.1 hrst hvalid p).symm.trans h)
    exact hs

theorem edges_asReset {p : Params} {pins : List PortIn} {s t : State} (hs : s.AsReset)
    (hvalid : ∀ pin ∈ pins, pin.cmdValid = false) (h : edges p pins s = .next t) : t.AsReset := by
  induction pins generalizing s with
  | nil =>
    cases h
    exact hs
  | cons pin pins ih =>
    obtain ⟨u, hedge, hedges⟩ := edges_cons h
    obtain ⟨hpin, hpins⟩ := List.forall_mem_cons.mp hvalid
    exact ih (edge_asReset hs hpin hedge) hpins hedges

theorem executeOldest_counts {p : Params} {s t : State} (h : executeOldest p s = .next t) :
    t.edge = s.edge ∧ t.sinceReset = s.sinceReset := by
  rcases executeOldest_cases h with ⟨-, rfl⟩ | ⟨c, rest, -, -, rfl⟩ | ⟨c, rest, -, -, -, hexec⟩
  · exact ⟨rfl, rfl⟩
  · exact ⟨rfl, rfl⟩
  · rw [everyCommandCompletes] at hexec
    obtain rfl := Host.Outcome.next.inj hexec
    exact ⟨rfl, rfl⟩

theorem acceptCommand_counts (p : Params) (pin : PortIn) (before s : State) :
    (acceptCommand p pin before s).edge = s.edge ∧ (acceptCommand p pin before s).sinceReset = s.sinceReset := by
  rcases acceptCommand_cases p pin before s with ⟨-, h⟩ | ⟨-, h⟩
  · exact ⟨by rw [h], by rw [h]⟩
  · exact ⟨by rw [h, pushCommand_edge], by rw [h, pushCommand_sinceReset]⟩

/-- Every edge without reset counts as one. -/
theorem edge_counts {p : Params} {pin : PortIn} {s t : State} (hrst : pin.rst = false)
    (h : edge p pin s = .next t) : t.edge = s.edge + 1 ∧ t.sinceReset = s.sinceReset + 1 := by
  rcases edge_cases h with ⟨hreset, -⟩ | ⟨-, -, u, hexec, rfl⟩ | ⟨-, -, -, rfl⟩
  · simp [hrst] at hreset
  · obtain ⟨-, -, -, hsince, hedge, -⟩ := takeResult_frame pin s
    obtain ⟨hedge', hsince'⟩ := executeOldest_counts hexec
    obtain ⟨hedge'', hsince''⟩ := acceptCommand_counts p pin s u
    exact ⟨by rw [State.tick_edge, hedge'', hedge', hedge],
      by rw [State.tick_sinceReset, hsince'', hsince', hsince]⟩
  · exact ⟨rfl, rfl⟩

theorem edges_sinceReset {p : Params} {pins : List PortIn} {s t : State} (hrst : ∀ pin ∈ pins, pin.rst = false)
    (h : edges p pins s = .next t) : t.sinceReset = s.sinceReset + pins.length := by
  induction pins generalizing s with
  | nil =>
    cases h
    rfl
  | cons pin pins ih =>
    obtain ⟨u, hedge, hedges⟩ := edges_cons h
    obtain ⟨hpin, hpins⟩ := List.forall_mem_cons.mp hrst
    rw [ih hpins hedges, (edge_counts hpin hedge).2, List.length_cons]
    omega

theorem recoveryEdges_le (p : Params) (s : State) : recoveryEdges p s ≤ p.cmdLatencyMax := Nat.min_le_right _ _

theorem recovered_iff {p : Params} {s : State} : recovered p s = true ↔ recoveryEdges p s ≤ s.sinceReset := by
  rw [recovered, decide_eq_true_iff]

theorem recovered_of_le_sinceReset {p : Params} {s : State} (h : p.cmdLatencyMax ≤ s.sinceReset) :
    recovered p s = true :=
  recovered_iff.mpr ((recoveryEdges_le p s).trans h)

/-- The length of the recovery is fixed by the edge of the reset, which does not move. -/
theorem edge_recovered {p : Params} {pin : PortIn} {s t : State} (hrst : pin.rst = false)
    (hs : recovered p s = true) (h : edge p pin s = .next t) : recovered p t = true := by
  obtain ⟨hedge, hsince⟩ := edge_counts hrst h
  rw [recovered_iff, recoveryEdges] at hs ⊢
  rw [hedge, hsince, Nat.add_sub_add_right]
  omega

theorem cmdReady_of_room {p : Params} {s : State} (hrecovered : recovered p s = true)
    (hlatency : s.inFlight.length ≤ p.cmdLatencyMax) (hroom : s.inFlight.length < p.pipeStages) :
    cmdReady p false s = true := by
  simp [cmdReady, hrecovered, latencyHasRoom_iff.mpr hlatency, pipelineHasRoom_iff.mpr hroom]

/-- Settles O33: the core stays as reset leaves it while the recovery runs out. -/
theorem resetEdgeEmptiesTheCore : Obligations.ResetEdgeEmptiesTheCore := by
  unfold Obligations.ResetEdgeEmptiesTheCore
  refine ⟨fun p pin s hrst => ?_, fun p pins s t hidle hlength h => ?_⟩
  · exact ⟨edge_of_rst hrst p s, by simp [accepts, hrst, cmdReady_of_rst], by simp [takes, hrst],
      by rw [hrst, cmdReady_of_rst]⟩
  · obtain ⟨hclean, htotal, -, -⟩ := edges_asReset (resetEdge_asReset s) (fun pin hpin => (hidle pin hpin).2) h
    have hsince := edges_sinceReset (fun pin hpin => (hidle pin hpin).1) h
    rw [resetEdge_sinceReset, Nat.zero_add] at hsince
    obtain ⟨-, hq, -⟩ := clean_iff.mp hclean
    have hready : cmdReady p false t = true :=
      cmdReady_of_room (recovered_of_le_sinceReset (hsince ▸ hlength)) (by simp [hq])
        (by simp [hq, Params.pipeStages])
    exact ⟨hready, htotal, hclean⟩

/-- Settles O35: the reset forgets the commands, and nothing new is offered. -/
theorem resetAbandonsTransaction : Obligations.ResetAbandonsTransaction := by
  unfold Obligations.ResetAbandonsTransaction
  intro p pin pins s t hrst hvalid h
  obtain ⟨u, hedge, hedges⟩ := edges_cons h
  obtain rfl := Host.Outcome.next.inj ((edge_of_rst hrst p s).symm.trans hedge)
  obtain ⟨hclean, htotal, haccepted, htaken⟩ := edges_asReset (resetEdge_asReset s) hvalid hedges
  obtain ⟨-, -, hwaiting⟩ := clean_iff.mp hclean
  exact ⟨htotal, hwaiting, htaken, haccepted⟩

/-- Settles O34: reset wins over everything, and no reset has been seen at power-up. -/
theorem firstResetAfterPowerUp : Obligations.FirstResetAfterPowerUp := by
  unfold Obligations.FirstResetAfterPowerUp
  refine ⟨fun p pin hrst => edge_of_rst hrst p State.powerUp, fun p pin hrst hvalid => ?_⟩
  have hunseen : State.powerUp.resetSeen = false := rfl
  simp [edge, hrst, hvalid, hunseen]

-- The finished run (70_reset_and_hazards.md R153, R154)

/-- Settles O47: the words are those accepted, and the results those of their run. -/
theorem finishedRunIsTheFold : Obligations.FinishedRunIsTheFold := by
  unfold Obligations.FinishedRunIsTheFold
  intro p pins s t hclean hrst h hover
  obtain ⟨ws, hws, -⟩ := edges_foreseen hrst h
  have hfold := finishedRun_eq_runAfter hclean hrst h hover hws
  rw [runAfter] at hfold
  obtain ⟨htotal, htaken⟩ := Prod.mk.inj hfold
  exact ⟨ws, (run s.total (commands ws)).2, hws, htaken, by rw [htotal]⟩

-- The admitted sequences (70_reset_and_hazards.md R152 (4), 30_encoding.md R66)

/-- A word with a meaning is admitted in front of an admitted sequence. -/
theorem checkSequence_cons_of_next {w : CmdWord} {ws : List CmdWord} {is : List Instr}
    (hw : (decode w).wellFormed = true) (h : checkSequence ws = .next is) :
    checkSequence (w :: ws) = .next (decode w :: is) := by
  cases hi : decode w with
  | reserved data => simp [hi, Instr.wellFormed] at hw
  | clr => simp [checkSequence, hi, h]
  | acc b => simp [checkSequence, hi, h]
  | rd => simp [checkSequence, hi, h]

theorem checkSequence_of_wellFormed {ws : List CmdWord} (h : ∀ w ∈ ws, (decode w).wellFormed = true) :
    checkSequence ws = .next (commands ws) := by
  induction ws with
  | nil => rfl
  | cons w ws ih =>
    obtain ⟨hw, hws⟩ := List.forall_mem_cons.mp h
    exact checkSequence_cons_of_next hw (ih hws)

theorem wellFormed_of_checkSequence {ws : List CmdWord} {is : List Instr} (h : checkSequence ws = .next is) :
    ∀ w ∈ ws, (decode w).wellFormed = true := by
  intro w hmem
  by_contra hw
  obtain ⟨data, hrefused⟩ := checkSequence_refuses hmem (Bool.not_eq_true _ ▸ hw)
  simp [hrefused] at h

theorem checkSequence_iff (ws : List CmdWord) (is : List Instr) :
    checkSequence ws = .next is ↔ is = commands ws ∧ ∀ w ∈ ws, (decode w).wellFormed = true := by
  constructor
  · intro h
    have hws := wellFormed_of_checkSequence h
    exact ⟨Host.Outcome.next.inj (h.symm.trans (checkSequence_of_wellFormed hws)), hws⟩
  · rintro ⟨rfl, hws⟩
    exact checkSequence_of_wellFormed hws

/-- Duty (4) at the first of the edges, and the duties at the others. -/
theorem hostKeepsDuties_cons {p : Params} {pin : PortIn} {pins : List PortIn} {s t : State}
    (h : hostKeepsDuties p (pin :: pins) s = true) (hedge : edge p pin s = .next t) :
    (pin.rst = false → pin.cmdValid = true → (decode pin.cmd).wellFormed = true) ∧
    hostKeepsDuties p pins t = true := by
  unfold hostKeepsDuties at h
  rw [hedge, Bool.and_eq_true, Bool.and_eq_true] at h
  obtain ⟨⟨hduty, -⟩, hrest⟩ := h
  exact ⟨fun hrst hvalid => by simpa [hrst, hvalid] using hduty, hrest⟩

theorem edge_resetSeen {p : Params} {pin : PortIn} {s t : State} (hseen : s.resetSeen = true)
    (h : edge p pin s = .next t) : t.resetSeen = true := by
  obtain ⟨t', h', ht'⟩ := edge_completes p pin hseen
  obtain rfl := Host.Outcome.next.inj (h'.symm.trans h)
  exact ht'

/-- What is accepted after an edge was so before, or was offered at the edge. -/
theorem mem_accepted_of_edge {p : Params} {pin : PortIn} {s t : State} (hseen : s.resetSeen = true)
    (h : edge p pin s = .next t) {w : CmdWord} (hw : w ∈ t.accepted) :
    w ∈ s.accepted ∨ (pin.rst = false ∧ pin.cmdValid = true ∧ w = pin.cmd) := by
  cases hrst : pin.rst with
  | true =>
    obtain rfl := Host.Outcome.next.inj ((edge_of_rst hrst p s).symm.trans h)
    cases hw
  | false =>
    rw [edge_accepted h hrst hseen] at hw
    split at hw
    · next haccepts =>
      obtain ⟨hvalid, -⟩ := accepts_iff.mp haccepts
      exact (List.mem_append.mp hw).imp_right fun hlast => ⟨rfl, hvalid, List.mem_singleton.mp hlast⟩
    · exact .inl hw

theorem accepted_wellFormed_of_duties {p : Params} {pins : List PortIn} {s t : State} (hseen : s.resetSeen = true)
    (hs : ∀ w ∈ s.accepted, (decode w).wellFormed = true) (hduties : hostKeepsDuties p pins s = true)
    (h : edges p pins s = .next t) : ∀ w ∈ t.accepted, (decode w).wellFormed = true := by
  induction pins generalizing s with
  | nil =>
    cases h
    exact hs
  | cons pin pins ih =>
    obtain ⟨u, hedge, hedges⟩ := edges_cons h
    obtain ⟨hduty, hrest⟩ := hostKeepsDuties_cons hduties hedge
    refine ih (edge_resetSeen hseen hedge) (fun w hw => ?_) hrest hedges
    rcases mem_accepted_of_edge hseen hedge hw with hold | ⟨hrst, hvalid, rfl⟩
    · exact hs w hold
    · exact hduty hrst hvalid

/-- Settles O54: duty (4) admits each offered word by itself. -/
theorem dutifulHostIsAdmitted : Obligations.DutifulHostIsAdmitted := by
  unfold Obligations.DutifulHostIsAdmitted
  refine ⟨checkSequence_iff, fun p pins t hduties h => checkSequence_of_wellFormed ?_⟩
  have hfresh : ∀ w ∈ State.reset.accepted, (decode w).wellFormed = true := fun w hw => by cases hw
  exact accepted_wellFormed_of_duties rfl hfresh hduties h

-- The holds (70_reset_and_hazards.md R149)

theorem recovered_eq_false_iff {p : Params} {s : State} :
    recovered p s = false ↔ s.sinceReset < recoveryEdges p s := by
  rw [← Bool.not_eq_true, recovered_iff, not_le]

theorem latencyHasRoom_eq_false_iff {p : Params} {s : State} :
    latencyHasRoom p s = false ↔ p.cmdLatencyMax < s.inFlight.length := by
  rw [← Bool.not_eq_true, latencyHasRoom_iff, not_le]

theorem pipelineHasRoom_eq_false_iff {p : Params} {s : State} :
    pipelineHasRoom p s = false ↔ p.pipeStages ≤ s.inFlight.length := by
  rw [← Bool.not_eq_true, pipelineHasRoom_iff, not_lt]

/-- Where there is an oldest command, it does not complete exactly when the stage keeps it or it stalls. -/
theorem oldestCompletes_eq_false_iff {p : Params} {s : State} (hq : s.inFlight ≠ []) :
    oldestCompletes p s = false ↔
      ∃ c rest, s.inFlight = c :: rest ∧ (stageHolds p c s = true ∨ stalls p (decode c.word) s = true) := by
  obtain ⟨c, rest, hcons⟩ := List.ne_nil_iff_exists_cons.mp hq
  simp [oldestCompletes, hcons, ← Bool.not_eq_true, imp_iff_not_or]

/-- A full pipeline holds something, since there is at least one stage. -/
theorem inFlight_ne_nil_of_full {p : Params} {s : State} (h : p.pipeStages ≤ s.inFlight.length) :
    s.inFlight ≠ [] :=
  List.ne_nil_of_length_pos (Nat.lt_of_lt_of_le (Nat.succ_pos p.pipeStagesMinusOne) h)

theorem cmdReady_eq_false_iff (p : Params) (rst : Bool) (s : State) : cmdReady p rst s = false ↔
    rst = true ∨ s.sinceReset < recoveryEdges p s ∨ p.cmdLatencyMax < s.inFlight.length ∨
    (p.pipeStages ≤ s.inFlight.length ∧
      ∃ c rest, s.inFlight = c :: rest ∧ (stageHolds p c s = true ∨ stalls p (decode c.word) s = true)) := by
  simp only [cmdReady, Bool.and_eq_false_iff, Bool.or_eq_false_iff, Bool.not_eq_false', recovered_eq_false_iff,
    latencyHasRoom_eq_false_iff, pipelineHasRoom_eq_false_iff]
  exact or_congr_right (or_congr_right (or_congr_right (and_congr_right fun hfull =>
    oldestCompletes_eq_false_iff (inFlight_ne_nil_of_full hfull))))

/-- At most `CMD_LATENCY_MAX` commands are in flight, or one more behind an `RD`. -/
theorem backlogHeldByRd_iff {p : Params} {s : State} : backlogHeldByRd p s = true ↔
    s.inFlight.length ≤ p.cmdLatencyMax ∨
    ∃ c rest, s.inFlight = c :: rest ∧ decode c.word = .rd ∧ rest.length ≤ p.cmdLatencyMax := by
  cases hq : s.inFlight with
  | nil => simp [backlogHeldByRd, hq]
  | cons c rest => simp [backlogHeldByRd, hq]

/-- Settles O40: the conditions of `cmd_ready`, each with its own exact reading. -/
theorem holdsAreComplete : Obligations.HoldsAreComplete := by
  unfold Obligations.HoldsAreComplete
  refine ⟨cmdReady_eq_false_iff, recoveryEdges_le, fun p c s h => Nat.pos_of_ne_zero (stageHolds_left h),
    fun p s hpaced hmany => ?_, fun p i s => stalls_iff⟩
  obtain ⟨-, -, hbacklog⟩ := hpaced
  obtain ⟨c, rest, hq, hrd, hrest⟩ := (backlogHeldByRd_iff.mp hbacklog).resolve_left hmany.not_ge
  rw [hq, List.length_cons] at hmany
  exact ⟨c, rest, hq, hrd, Nat.le_antisymm hrest (Nat.le_of_lt_succ hmany)⟩

end Sys2Proof.Machine

/-! PROOFS. The port-level trace of the reference organisation (70_reset_and_hazards.md R145, the end of
95_test_vectors.md). The idea: in that organisation, with no result waiting, every edge completes the one command in flight
and accepts what is offered, whether or not the host is ready for a result. -/

namespace Sys2Proof.Machine

open Sys2Proof.Config (Params referenceParams)

/-- The state so many edges after a reset in `s`, with nothing taken yet and no edge left to the commands in flight. -/
def State.afterReset (s : State) (n : Nat) (total : Total) (flight : List CmdWord) (waiting : List Total)
    (accepted : List CmdWord) : State :=
  { resetEdge s with total := total, inFlight := flight.map fun w => { word := w, left := 0 }, resWaiting := waiting,
                     sinceReset := n, edge := s.edge + 1 + n, accepted := accepted }

/-- The word the host offers, or none. -/
def offered (pin : PortIn) : List CmdWord := if pin.cmdValid then [pin.cmd] else []

/-- The accumulator stage of the reference organisation completes the one command in flight, if there is one. -/
theorem reference_executeOldest (s : State) (n : Nat) (total : Total) (flight accepted : List CmdWord)
    (hone : flight.length ≤ 1) :
    executeOldest referenceParams (s.afterReset n total flight [] accepted) =
      .next (s.afterReset n (run total (commands flight)).1 [] (run total (commands flight)).2 accepted) := by
  match flight, hone with
  | [], _ => exact executeOldest_of_nothing_inFlight _ rfl
  | [v], _ =>
    have hstall : stalls referenceParams (decode v) (s.afterReset n total [v] [] accepted) = false := by
      rw [← Bool.not_eq_true, stalls_iff]
      exact fun ⟨_, hfull⟩ => absurd hfull (Nat.not_succ_le_zero 0)
    rw [executeOldest_of_neither_held_nor_stalled (c := ⟨v, 0⟩) (rest := []) rfl rfl hstall, everyCommandCompletes]
    simp [State.afterReset, State.setInFlight, commands, run]

theorem reference_accepts (s : State) (n : Nat) (total : Total) (flight accepted : List CmdWord)
    (hone : flight.length ≤ 1) {pin : PortIn} (hrst : pin.rst = false) :
    accepts referenceParams pin (s.afterReset n total flight [] accepted) = pin.cmdValid := by
  have hrecovered : recovered referenceParams (s.afterReset n total flight [] accepted) = true :=
    recovered_iff.mpr ((Nat.min_le_left _ _).trans (Nat.zero_le n))
  have hflight : (s.afterReset n total flight [] accepted).inFlight.length ≤ 1 := by simpa [State.afterReset] using hone
  rw [accepts, hrst, cmdReady_of_room hrecovered hflight (Nat.lt_succ_of_le hflight), Bool.and_true]

theorem reference_edge (s : State) (n : Nat) (total : Total) (flight accepted : List CmdWord)
    (hone : flight.length ≤ 1) {pin : PortIn} (hrst : pin.rst = false) :
    edge referenceParams pin (s.afterReset n total flight [] accepted) =
      .next (s.afterReset (n + 1) (run total (commands flight)).1 (offered pin) (run total (commands flight)).2
        (accepted ++ offered pin)) := by
  have hexec := reference_executeOldest s n total flight accepted hone
  rw [← takeResult_of_nothing_waiting pin (s := s.afterReset n total flight [] accepted) rfl] at hexec
  rw [edge_of_executeOldest hrst rfl hexec, acceptCommand, reference_accepts s n total flight accepted hone hrst, offered]
  cases pin.cmdValid with
  | false => simp [State.afterReset, State.tick, Nat.add_assoc]
  | true => simp [State.afterReset, State.tick, pushCommand, referenceParams, Nat.add_assoc]

/-- Settles O55, edge by edge along the trace. -/
theorem referenceTraceOfParse12 : Obligations.ReferenceTraceOfParse12 := by
  unfold Obligations.ReferenceTraceOfParse12
  intro s t u x a b c d e h hlast
  have hclr := reference_edge s 0 0#128 [] [] (by decide) (pin := ⟨false, true, 0x000#10, c⟩) rfl
  have hone := reference_edge s 1 0#128 [0x000#10] [0x000#10] (by decide) (pin := ⟨false, true, 0x131#10, d⟩) rfl
  have htwo := reference_edge s 2 0#128 [0x131#10] [0x000#10, 0x131#10] (by decide)
    (pin := ⟨false, true, 0x132#10, e⟩) rfl
  have hrd := reference_edge s 3 1#128 [0x132#10] [0x000#10, 0x131#10, 0x132#10] (by decide)
    (pin := ⟨false, true, 0x200#10, a⟩) rfl
  have hpause := reference_edge s 4 12#128 [0x200#10] [0x000#10, 0x131#10, 0x132#10, 0x200#10] (by decide)
    (pin := ⟨false, false, x, b⟩) rfl
  have htrace := (edges_cons_of_edge (edge_of_rst (pin := ⟨true, a, x, b⟩) rfl referenceParams s) _).trans <|
    (edges_cons_of_edge hclr _).trans <| (edges_cons_of_edge hone _).trans <| (edges_cons_of_edge htwo _).trans <|
    (edges_cons_of_edge hrd _).trans <| edges_cons_of_edge hpause []
  obtain rfl := Host.Outcome.next.inj (htrace.symm.trans h)
  obtain rfl := Host.Outcome.next.inj hlast
  exact ⟨rfl, rfl, rfl, rfl, rfl, rfl, rfl, rfl⟩

end Sys2Proof.Machine

/-! PROOFS. The time of a command (70_reset_and_hazards.md R146, R147). The idea: the counts of `CMD_LATENCY_MAX` stand in
order in the pipeline, so that while the stage keeps the oldest command the counts behind it are all different and leave
room for the commands behind it. So a pipeline of at most `k` commands with fewer than `k` edges left to each
(`DrainsIn k`) is, one edge on with no `RD` stalled, one with `k - 1`. The bounds follow by following the commands of one
moment, or the words an offering host has still to send, over the edges. -/

namespace Sys2Proof.Machine

open Sys2Proof.Config (Params)

-- The counts of a pipeline

/-- An older command has fewer edges left than a younger one, or neither has any. -/
abbrev CountsInOrder (q : List InFlight) : Prop := (q.map (·.left)).Pairwise fun a b => a < b ∨ (a = 0 ∧ b = 0)

/-- Few enough commands, each with few enough edges left, to complete in so many edges. -/
def DrainsIn (k : Nat) (q : List InFlight) : Prop := q.length ≤ k ∧ ∀ c ∈ q, c.left < k

/-- What the stage can leave of a pipeline where no `RD` stalls: it keeps the oldest command, which still has an edge
left, or it does not. -/
inductive StageLeaves : List InFlight → List InFlight → Prop
  | held {c : InFlight} {rest : List InFlight} (hleft : c.left ≠ 0) : StageLeaves (c :: rest) (ageAll (c :: rest))
  | advanced (q : List InFlight) : StageLeaves q (ageAll q.tail)

theorem countsInOrder_cons_iff {c : InFlight} {q : List InFlight} : CountsInOrder (c :: q) ↔
    (∀ d ∈ q, c.left < d.left ∨ (c.left = 0 ∧ d.left = 0)) ∧ CountsInOrder q := by
  simp [CountsInOrder]

theorem countsInOrder_tail {q : List InFlight} (h : CountsInOrder q) : CountsInOrder q.tail := by
  rw [CountsInOrder, List.map_tail]
  exact h.tail

theorem countsInOrder_ageAll {q : List InFlight} (h : CountsInOrder q) : CountsInOrder (ageAll q) := by
  rw [CountsInOrder, List.pairwise_map] at h ⊢
  rw [ageAll, List.pairwise_map]
  refine h.imp fun hab => ?_
  dsimp only
  omega

/-- A command that has just been accepted has more edges left than those that have aged. -/
theorem countsInOrder_ageAll_concat {n : Nat} {q : List InFlight} {c : InFlight} (h : CountsInOrder q)
    (hlt : ∀ d ∈ q, d.left < n + 1) (hc : c.left = n) : CountsInOrder (ageAll q ++ [c]) := by
  have haged : ∀ d ∈ ageAll q, d.left < c.left ∨ (d.left = 0 ∧ c.left = 0) := by
    intro d hd
    obtain ⟨e, he, rfl⟩ := List.mem_map.mp hd
    have hbound := hlt e he
    dsimp only
    omega
  rw [CountsInOrder, List.map_append, List.pairwise_append]
  exact ⟨countsInOrder_ageAll h, by simp, by simpa using haged⟩

/-- The counts behind a command that has an edge left grow at each place. -/
theorem left_add_length_lt {k : Nat} {c : InFlight} {rest : List InFlight} (horder : CountsInOrder (c :: rest))
    (hlt : ∀ d ∈ c :: rest, d.left < k) (hc : c.left ≠ 0) : c.left + rest.length < k := by
  induction rest generalizing c with
  | nil => exact hlt c (List.mem_singleton_self c)
  | cons d rest ih =>
    obtain ⟨hfirst, hrest⟩ := countsInOrder_cons_iff.mp horder
    have hcd := hfirst d List.mem_cons_self
    have hd := ih hrest (List.forall_mem_cons.mp hlt).2 (by omega)
    rw [List.length_cons]
    omega

theorem length_lt_of_held {k : Nat} {c : InFlight} {rest : List InFlight} (horder : CountsInOrder (c :: rest))
    (hlt : ∀ d ∈ c :: rest, d.left < k) (hc : c.left ≠ 0) : (c :: rest).length < k := by
  have hsum := left_add_length_lt horder hlt hc
  rw [List.length_cons]
  omega

theorem drainsIn_nil (k : Nat) : DrainsIn k [] := ⟨Nat.zero_le k, fun _ hc => absurd hc List.not_mem_nil⟩

theorem drainsIn_ageAll {k : Nat} {q : List InFlight} (hlength : q.length ≤ k - 1) (hleft : ∀ c ∈ q, c.left < k) :
    DrainsIn (k - 1) (ageAll q) := by
  refine ⟨by rwa [ageAll_length], fun d hd => ?_⟩
  obtain ⟨c, hc, rfl⟩ := List.mem_map.mp hd
  have hpos := List.length_pos_of_mem hc
  have hbound := hleft c hc
  dsimp only
  omega

/-- One edge less is needed after each edge. -/
theorem StageLeaves.drainsIn {k : Nat} {q q' : List InFlight} (h : StageLeaves q q') (horder : CountsInOrder q)
    (hq : DrainsIn k q) : DrainsIn (k - 1) q' := by
  obtain ⟨hlength, hleft⟩ := hq
  cases h with
  | held hc => exact drainsIn_ageAll (Nat.le_sub_one_of_lt (length_lt_of_held horder hleft hc)) hleft
  | advanced =>
    refine drainsIn_ageAll ?_ fun c hc => hleft c (List.mem_of_mem_tail hc)
    rw [List.length_tail]
    exact Nat.sub_le_sub_right hlength 1

/-- The stage works at the head: of a pipeline in two parts it leaves two parts, the second with no more in it. -/
theorem StageLeaves.append {old new q' : List InFlight} (h : StageLeaves (old ++ new) q') :
    ∃ old' new', q' = old' ++ new' ∧ StageLeaves old old' ∧ new'.length ≤ new.length := by
  cases old with
  | nil =>
    refine ⟨[], q', rfl, .advanced [], ?_⟩
    rw [List.nil_append] at h
    cases h with
    | held => rw [ageAll_length]
    | advanced => simp
  | cons c old =>
    generalize hq : c :: old ++ new = q at h
    cases h with
    | held hc =>
      obtain ⟨rfl, rfl⟩ := List.cons.inj hq
      exact ⟨ageAll (c :: old), ageAll new, ageAll_append (c :: old) new, .held hc, by rw [ageAll_length]⟩
    | advanced =>
      refine ⟨ageAll old, ageAll new, ?_, .advanced (c :: old), by rw [ageAll_length]⟩
      rw [← hq, List.cons_append, List.tail_cons, ageAll_append]

theorem StageLeaves.words_suffix {q q' : List InFlight} (h : StageLeaves q q') :
    q'.map (·.word) <:+ q.map (·.word) := by
  cases h with
  | held => rw [ageAll_words]
  | advanced =>
    rw [ageAll_words, List.map_tail]
    exact List.tail_suffix _

-- The pipeline at one edge

/-- The word this edge accepts, or none. -/
def newWords (p : Params) (pin : PortIn) (s : State) : List CmdWord := if accepts p pin s then [pin.cmd] else []

/-- A command as it stands in the pipeline after the edge of its acceptance. -/
def entering (p : Params) (w : CmdWord) : InFlight := { word := w, left := p.cmdLatencyMaxMinusOne }

theorem newWords_of_accepts {p : Params} {pin : PortIn} {s : State} (h : accepts p pin s = true) :
    newWords p pin s = [pin.cmd] := by
  rw [newWords, if_pos h]

theorem newWords_of_not_accepts {p : Params} {pin : PortIn} {s : State} (h : accepts p pin s = false) :
    newWords p pin s = [] := by
  rw [newWords, if_neg (by simp [h])]

/-- The accepted word joins what the stage leaves. -/
theorem edge_newWords {p : Params} {pin : PortIn} {s t : State} (hrst : pin.rst = false) (hseen : s.resetSeen = true)
    (h : edge p pin s = .next t) : ∃ u, executeOldest p (takeResult pin s) = .next u ∧
      t.inFlight = u.inFlight ++ (newWords p pin s).map (entering p) ∧ t.accepted = s.accepted ++ newWords p pin s := by
  obtain ⟨u, hexec, -, hyes, hno⟩ := commandPortAccepts.2 p pin s t hrst hseen h
  refine ⟨u, hexec, ?_⟩
  cases haccepts : accepts p pin s with
  | true =>
    obtain ⟨haccepted, hflight⟩ := hyes haccepts
    rw [newWords_of_accepts haccepts]
    exact ⟨hflight, haccepted⟩
  | false =>
    obtain ⟨haccepted, hflight⟩ := hno haccepts
    rw [newWords_of_not_accepts haccepts, List.map_nil, List.append_nil, List.append_nil]
    exact ⟨hflight, haccepted⟩

/-- What the stage does to the pipeline: as `StageLeaves` says, or an `RD` stalls at the result port. -/
theorem stage_inFlight {p : Params} {pin : PortIn} {s u : State} (h : executeOldest p (takeResult pin s) = .next u) :
    StageLeaves s.inFlight u.inFlight ∨
    ∃ c rest, s.inFlight = c :: rest ∧ decode c.word = .rd ∧
      p.resDepth ≤ (takeResult pin s).resWaiting.length ∧ u.inFlight = ageAll (c :: rest) := by
  obtain ⟨-, hflight, -⟩ := takeResult_frame pin s
  rcases executeOldest_cases h with ⟨hq, rfl⟩ | ⟨c, rest, hq, hhold | hstall, rfl⟩ | ⟨c, rest, hq, -, -, hexec⟩
  · rw [← hflight, hq]
    exact .inl (.advanced [])
  · rw [← hflight, hq]
    exact .inl (.held (stageHolds_left hhold))
  · obtain ⟨hrd, hfull⟩ := stalls_iff.mp hstall
    exact .inr ⟨c, rest, hflight.symm.trans hq, hrd, hfull, rfl⟩
  · obtain ⟨-, -, hleaves, -, -⟩ := exec_next_fields hexec
    rw [← hflight, hq, hleaves]
    exact .inl (.advanced (c :: rest))

-- The invariants `Paced` and `OnTime` (70_reset_and_hazards.md R146)

theorem newWords_length_le_one (p : Params) (pin : PortIn) (s : State) : (newWords p pin s).length ≤ 1 := by
  unfold newWords
  split <;> simp

/-- Where a word is accepted, at most `CMD_LATENCY_MAX` commands are in flight. -/
theorem newWords_eq_nil_or (p : Params) (pin : PortIn) (s : State) :
    newWords p pin s = [] ∨ (newWords p pin s = [pin.cmd] ∧ s.inFlight.length ≤ p.cmdLatencyMax) := by
  cases haccepts : accepts p pin s with
  | false => exact .inl (newWords_of_not_accepts haccepts)
  | true =>
    obtain ⟨-, -, -, hlatency, -⟩ := accepts_iff.mp haccepts
    exact .inr ⟨newWords_of_accepts haccepts, latencyHasRoom_iff.mp hlatency⟩

theorem edge_countsInOrder {p : Params} {pin : PortIn} {s t : State} (hrst : pin.rst = false)
    (hseen : s.resetSeen = true) (hleft : ∀ c ∈ s.inFlight, c.left < p.cmdLatencyMax)
    (horder : CountsInOrder s.inFlight) (h : edge p pin s = .next t) : CountsInOrder t.inFlight := by
  obtain ⟨-, hflight, -⟩ := takeResult_frame pin s
  obtain ⟨u, hexec, ht, -⟩ := edge_newWords hrst hseen h
  obtain ⟨q, hq, hu, hqleft⟩ : ∃ q, CountsInOrder q ∧ u.inFlight = ageAll q ∧ ∀ c ∈ q, c.left < p.cmdLatencyMax := by
    rcases executeOldest_inFlight hexec with hu | hu
    · exact ⟨_, horder, hflight ▸ hu, hleft⟩
    · exact ⟨_, countsInOrder_tail horder, hflight ▸ hu, fun c hc => hleft c (List.mem_of_mem_tail hc)⟩
  rw [ht, hu]
  rcases newWords_eq_nil_or p pin s with hnew | ⟨hnew, -⟩
  · rw [hnew, List.map_nil, List.append_nil]
    exact countsInOrder_ageAll hq
  · rw [hnew, List.map_singleton]
    exact countsInOrder_ageAll_concat hq hqleft rfl

/-- Where the pipeline is not behind a stalled `RD`, at most `CMD_LATENCY_MAX` commands are in flight after the edge. -/
theorem StageLeaves.length_add_newWords_le {p : Params} {pin : PortIn} {s : State} {q : List InFlight}
    (h : StageLeaves s.inFlight q) (hs : Paced p s) : q.length + (newWords p pin s).length ≤ p.cmdLatencyMax := by
  obtain ⟨⟨-, -, hleft⟩, horder, hbacklog⟩ := hs
  have hone := newWords_length_le_one p pin s
  generalize hflight : s.inFlight = flight at h
  cases h with
  | held hc =>
    rw [hflight] at horder hleft
    have hlt := length_lt_of_held horder hleft hc
    rw [ageAll_length]
    omega
  | advanced =>
    rw [ageAll_length, List.length_tail, ← hflight]
    have hpos : 0 < p.cmdLatencyMax := Nat.succ_pos _
    rcases newWords_eq_nil_or p pin s with hnew | ⟨-, hlatency⟩
    · rw [hnew, List.length_nil]
      rcases backlogHeldByRd_iff.mp hbacklog with hfew | ⟨c, rest, hq, -, hrest⟩
      · omega
      · rw [hq, List.length_cons]
        omega
    · omega

theorem edge_backlogHeldByRd {p : Params} {pin : PortIn} {s t : State} (hrst : pin.rst = false)
    (hseen : s.resetSeen = true) (hs : Paced p s) (h : edge p pin s = .next t) : backlogHeldByRd p t = true := by
  obtain ⟨u, hexec, ht, -⟩ := edge_newWords hrst hseen h
  rw [backlogHeldByRd_iff, ht]
  rcases stage_inFlight hexec with hleaves | ⟨c, rest, hq, hrd, -, hu⟩
  · left
    rw [List.length_append, List.length_map]
    exact hleaves.length_add_newWords_le hs
  · right
    refine ⟨{ c with left := c.left - 1 }, ageAll rest ++ (newWords p pin s).map (entering p), by rw [hu]; rfl, hrd, ?_⟩
    rw [List.length_append, ageAll_length, List.length_map]
    rcases newWords_eq_nil_or p pin s with hnew | ⟨hnew, hlatency⟩
    · obtain ⟨-, -, hbacklog⟩ := hs
      rcases backlogHeldByRd_iff.mp hbacklog with hfew | ⟨d, others, hq', -, hrest⟩
      · rw [hnew, List.length_nil]
        rw [hq, List.length_cons] at hfew
        omega
      · obtain ⟨-, rfl⟩ := List.cons.inj (hq.symm.trans hq')
        rw [hnew]
        exact hrest
    · rw [hq, List.length_cons] at hlatency
      rw [hnew, List.length_singleton]
      exact hlatency

/-- Every edge keeps the pace, whatever the host does. -/
theorem edge_paced {p : Params} {pin : PortIn} {s t : State} (hs : Paced p s) (h : edge p pin s = .next t) :
    Paced p t := by
  have hbounded := edge_bounded hs.1 h
  rcases edge_cases h with ⟨-, rfl⟩ | ⟨hrst, hseen, -⟩ | ⟨-, -, -, rfl⟩
  · exact paced_of_empty (resetEdge_inFlight s) (resetEdge_resWaiting s) p
  · have ⟨⟨_, _, hleft⟩, horder, _⟩ := hs
    exact ⟨hbounded, edge_countsInOrder hrst hseen hleft horder h, edge_backlogHeldByRd hrst hseen hs h⟩
  · exact hs

/-- Settles O58, by the three parts of `Paced`. -/
theorem edgeKeepsPace : Obligations.EdgeKeepsPace := by
  unfold Obligations.EdgeKeepsPace
  intro p pin s t
  exact edge_paced

/-- A host that takes results leaves room at the result port at every edge. -/
theorem takeResult_leaves_room {p : Params} {pin : PortIn} {s : State} (hrst : pin.rst = false)
    (hready : pin.resReady = true) (hs : Bounded p s) : (takeResult pin s).resWaiting.length < p.resDepth := by
  obtain ⟨-, hwaiting, -⟩ := hs
  rcases takeResult_cases pin s with ⟨hnone, htake⟩ | ⟨v, rest, -, hcons, htake⟩
  · have hempty : s.resWaiting = [] := by simpa [takes, resValid, hrst, hready] using hnone
    rw [htake, hempty]
    exact Nat.succ_pos _
  · rw [hcons] at hwaiting
    rw [htake]
    exact hwaiting

/-- While results are taken no `RD` stalls. -/
theorem edge_of_taking {p : Params} {pin : PortIn} {s t : State} (hrst : pin.rst = false)
    (hready : pin.resReady = true) (hseen : s.resetSeen = true) (hs : Paced p s) (h : edge p pin s = .next t) :
    ∃ q, StageLeaves s.inFlight q ∧ t.inFlight = q ++ (newWords p pin s).map (entering p) ∧
      t.accepted = s.accepted ++ newWords p pin s := by
  obtain ⟨u, hexec, ht, haccepted⟩ := edge_newWords hrst hseen h
  rcases stage_inFlight hexec with hleaves | ⟨c, rest, -, -, hfull, -⟩
  · exact ⟨_, hleaves, ht, haccepted⟩
  · exact absurd hfull (takeResult_leaves_room hrst hready hs.1).not_ge

/-- Settles O56: behind no stalled `RD` no more commands pile up. -/
theorem edgeKeepsCommandsOnTime : Obligations.EdgeKeepsCommandsOnTime := by
  unfold Obligations.EdgeKeepsCommandsOnTime
  intro p pin s t hpins hs h
  have hpaced : Paced p s := hs.1
  have hpaced' := edge_paced hpaced h
  rcases edge_cases h with ⟨-, rfl⟩ | ⟨hrst, hseen, -⟩ | ⟨-, -, -, rfl⟩
  · exact onTime_of_empty (resetEdge_inFlight s) (resetEdge_resWaiting s) p
  · obtain ⟨q, hleaves, ht, -⟩ := edge_of_taking hrst (hpins.resolve_left (by simp [hrst])) hseen hpaced h
    refine ⟨hpaced', ?_⟩
    rw [ht, List.length_append, List.length_map]
    exact hleaves.length_add_newWords_le hpaced
  · exact hs

-- The commands of one moment (70_reset_and_hazards.md R146)

/-- But for what has been accepted since the sequence of accepted words had length `base`, the pipeline drains in `k`
edges. -/
def OlderDrainIn (base k : Nat) (s : State) : Prop :=
  ∃ old new, s.inFlight = old ++ new ∧ DrainsIn k old ∧ new.length + base ≤ s.accepted.length

theorem olderDrainIn_accepted {k : Nat} {s : State} (h : DrainsIn k s.inFlight) :
    OlderDrainIn s.accepted.length k s :=
  ⟨s.inFlight, [], (List.append_nil _).symm, h, by simp⟩

theorem OlderDrainIn.length_le {base k : Nat} {s : State} (h : OlderDrainIn base k s) :
    s.inFlight.length + base ≤ s.accepted.length + k := by
  obtain ⟨old, new, hq, ⟨hold, -⟩, hnew⟩ := h
  rw [hq, List.length_append]
  omega

theorem drainsIn_of_paced {p : Params} {s : State} {k : Nat} (hs : Paced p s) (hlength : s.inFlight.length ≤ k)
    (hk : p.cmdLatencyMax ≤ k) : DrainsIn k s.inFlight := by
  obtain ⟨⟨-, -, hleft⟩, -⟩ := hs
  exact ⟨hlength, fun c hc => (hleft c hc).trans_le hk⟩

theorem edge_olderDrainIn {p : Params} {pin : PortIn} {base k : Nat} {s t : State} (hrst : pin.rst = false)
    (hready : pin.resReady = true) (hseen : s.resetSeen = true) (hs : Paced p s) (hold : OlderDrainIn base k s)
    (h : edge p pin s = .next t) : OlderDrainIn base (k - 1) t := by
  obtain ⟨old, new, hq, hdrains, hnew⟩ := hold
  have ⟨_, horder, _⟩ := hs
  obtain ⟨q, hleaves, ht, haccepted⟩ := edge_of_taking hrst hready hseen hs h
  rw [hq] at hleaves
  rw [hq, List.map_append] at horder
  obtain ⟨old', new', rfl, hold', hnew'⟩ := hleaves.append
  refine ⟨old', new' ++ (newWords p pin s).map (entering p), by rw [ht, List.append_assoc],
    hold'.drainsIn (List.pairwise_append.mp horder).1 hdrains, ?_⟩
  rw [haccepted, List.length_append, List.length_append, List.length_map]
  omega

theorem edges_olderDrainIn {p : Params} {pins : List PortIn} {base k : Nat} {s t : State}
    (hpins : ∀ pin ∈ pins, pin.rst = false ∧ pin.resReady = true) (hseen : s.resetSeen = true) (hs : Paced p s)
    (hold : OlderDrainIn base k s) (h : edges p pins s = .next t) : OlderDrainIn base (k - pins.length) t := by
  induction pins generalizing s k with
  | nil =>
    cases h
    exact hold
  | cons pin pins ih =>
    obtain ⟨u, hedge, hedges⟩ := edges_cons h
    obtain ⟨⟨hrst, hready⟩, hrest⟩ := List.forall_mem_cons.mp hpins
    have hu := ih hrest (edge_resetSeen hseen hedge) (edge_paced hs hedge)
      (edge_olderDrainIn hrst hready hseen hs hold hedge) hedges
    rwa [Nat.sub_sub, Nat.add_comm, ← List.length_cons (a := pin)] at hu

/-- Settles O52: at first the whole pipeline drains in `CMD_LATENCY_MAX` edges. -/
theorem commandsCompleteInTime : Obligations.CommandsCompleteInTime := by
  unfold Obligations.CommandsCompleteInTime
  intro p pins s t hseen hs hpins hlength h
  obtain ⟨hpaced, hfew⟩ := hs
  have hold := edges_olderDrainIn hpins hseen hpaced (olderDrainIn_accepted (drainsIn_of_paced hpaced hfew le_rfl)) h
  rw [Nat.sub_eq_zero_of_le hlength] at hold
  exact hold.length_le

/-- Settles O59: what is accepted finds at most `CMD_LATENCY_MAX` commands, and the edge of its acceptance leaves the
pipeline on time. -/
theorem acceptedCommandCompletesInTime : Obligations.AcceptedCommandCompletesInTime := by
  unfold Obligations.AcceptedCommandCompletesInTime
  intro p pin pins s t u hseen hs haccepts hedge hpins hlength h
  obtain ⟨⟨hrst, hready⟩, hrest⟩ := List.forall_mem_cons.mp hpins
  obtain ⟨-, -, -, hlatency, -⟩ := accepts_iff.mp haccepts
  have ht : OnTime p t :=
    edgeKeepsCommandsOnTime p pin s t (.inr hready) ⟨hs, latencyHasRoom_iff.mp hlatency⟩ hedge
  refine ⟨by rw [edge_accepted hedge hrst hseen, if_pos haccepts], ?_⟩
  exact commandsCompleteInTime p pins t u (edge_resetSeen hseen hedge) ht hrest hlength h

end Sys2Proof.Machine

/-! PROOFS. The time of an offer and of a transaction (70_reset_and_hazards.md R146, R147). The idea of the first: while
nothing is accepted the pipeline drains, so that after `CMD_LATENCY_MAX` edges it is not full. That of the second: while the
host has words to send, the edges that the pipeline needs to drain, with `CMD_LATENCY_MAX` for each word not yet accepted,
grow fewer at every edge. -/

namespace Sys2Proof.Machine

open Sys2Proof.Config (Params)

-- An offer that stands (70_reset_and_hazards.md R147)

theorem edges_append {p : Params} {before after : List PortIn} {s t : State}
    (h : edges p (before ++ after) s = .next t) :
    ∃ u, edges p before s = .next u ∧ edges p after u = .next t := by
  induction before generalizing s with
  | nil => exact ⟨s, rfl, h⟩
  | cons pin pins ih =>
    obtain ⟨v, hedge, hedges⟩ := edges_cons h
    obtain ⟨u, hbefore, hafter⟩ := ih hedges
    exact ⟨u, (edges_cons_of_edge hedge pins).trans hbefore, hafter⟩

theorem edges_resetSeen {p : Params} {pins : List PortIn} {s t : State} (hseen : s.resetSeen = true)
    (h : edges p pins s = .next t) : t.resetSeen = true := by
  obtain ⟨t', h', ht'⟩ := neverStopsAfterReset p pins s hseen
  obtain rfl := Host.Outcome.next.inj (h'.symm.trans h)
  exact ht'

/-- A host that offers only one word has only that word accepted. -/
theorem edges_replicate_accepted {p : Params} {pin : PortIn} {n : Nat} {s t : State} (hrst : pin.rst = false)
    (hseen : s.resetSeen = true) (h : edges p (List.replicate n pin) s = .next t) :
    ∃ m, t.accepted = s.accepted ++ List.replicate m pin.cmd := by
  induction n generalizing s with
  | zero =>
    cases h
    exact ⟨0, (List.append_nil _).symm⟩
  | succ n ih =>
    obtain ⟨u, hedge, hedges⟩ := edges_cons h
    obtain ⟨m, ht⟩ := ih (edge_resetSeen hseen hedge) hedges
    rw [edge_accepted hedge hrst hseen] at ht
    split at ht
    · exact ⟨m + 1, by rw [ht, List.append_assoc, List.replicate_succ, List.singleton_append]⟩
    · exact ⟨m, ht⟩

/-- When a host has taken results for `CMD_LATENCY_MAX` edges at which nothing was accepted, `cmd_ready` is up. -/
theorem cmdReady_of_nothing_accepted {p : Params} {pins : List PortIn} {s t : State}
    (hpins : ∀ pin ∈ pins, pin.rst = false ∧ pin.resReady = true) (hlength : p.cmdLatencyMax = pins.length)
    (hseen : s.resetSeen = true) (hs : Paced p s) (h : edges p pins s = .next t) (hnone : t.accepted = s.accepted) :
    cmdReady p false t = true := by
  have ⟨⟨hpipe, _, _⟩, _, hbacklog⟩ := hs
  have hmost : s.inFlight.length ≤ p.cmdLatencyMax + 1 := by
    rcases backlogHeldByRd_iff.mp hbacklog with hfew | ⟨c, rest, hq, -, hrest⟩
    · exact hfew.trans (Nat.le_succ _)
    · rw [hq]
      exact Nat.succ_le_succ hrest
  have hdrains := drainsIn_of_paced (k := max s.inFlight.length p.cmdLatencyMax) hs (Nat.le_max_left _ _)
    (Nat.le_max_right _ _)
  have hfew := (edges_olderDrainIn hpins hseen hs (olderDrainIn_accepted hdrains) h).length_le
  have hsince := edges_sinceReset (fun pin hpin => (hpins pin hpin).1) h
  have hstages : 0 < p.pipeStages := Nat.succ_pos _
  have hlatency : 0 < p.cmdLatencyMax := Nat.succ_pos _
  rw [hnone] at hfew
  exact cmdReady_of_room (recovered_of_le_sinceReset (by omega)) (by omega) (by omega)

/-- Settles O53: the offer is accepted at one of the first `CMD_LATENCY_MAX` edges, or else at the next. -/
theorem offeredCommandIsAccepted : Obligations.OfferedCommandIsAccepted := by
  unfold Obligations.OfferedCommandIsAccepted
  intro p s t w hseen hs h
  rw [List.replicate_succ'] at h
  obtain ⟨u, hfirst, hlast⟩ := edges_append h
  obtain ⟨v, hedge, hnil⟩ := edges_cons hlast
  obtain rfl : v = t := Host.Outcome.next.inj hnil
  obtain ⟨m, hm⟩ := edges_replicate_accepted rfl hseen hfirst
  rw [edge_accepted hedge rfl (edges_resetSeen hseen hfirst), hm]
  cases m with
  | zero =>
    rw [List.replicate_zero, List.append_nil] at hm
    have hready : cmdReady p false u = true :=
      cmdReady_of_nothing_accepted (fun pin hpin => by rw [List.eq_of_mem_replicate hpin]; exact ⟨rfl, rfl⟩)
        List.length_replicate.symm hseen hs hfirst hm
    rw [if_pos (by rw [accepts, hready]; rfl), List.replicate_zero, List.append_nil]
    exact ⟨[], rfl⟩
  | succ m =>
    rw [List.replicate_succ]
    split
    · exact ⟨List.replicate m w ++ [w], by rw [List.append_assoc, List.cons_append]⟩
    · exact ⟨List.replicate m w, rfl⟩

-- A host that offers words without pause (70_reset_and_hazards.md R146, R152)

/-- No word but the last is an `RD`. -/
abbrev OnlyLastIsRd (ws : List CmdWord) : Prop := ws.Pairwise fun v _ => decode v ≠ .rd

theorem onlyLastIsRd_transactionWords (text : List Byte) : OnlyLastIsRd (transactionWords text) := by
  have hbefore : ∀ v ∈ 0x000#10 :: text.map accWord, decode v ≠ .rd := by
    intro v hv hrd
    rcases List.mem_cons.mp hv with rfl | hacc
    · exact absurd hrd (by decide)
    · obtain ⟨b, -, rfl⟩ := List.mem_map.mp hacc
      rw [decode_accWord] at hrd
      cases hrd
  have hsplit : transactionWords text = (0x000#10 :: text.map accWord) ++ [0x200#10] := rfl
  rw [hsplit, OnlyLastIsRd, List.pairwise_append]
  exact ⟨List.pairwise_of_forall_mem_list fun v hv _ _ => hbefore v hv, List.pairwise_singleton _ _,
    fun v hv _ _ => hbefore v hv⟩

/-- A core to which the words `ws` are still to be offered and which drains in `k` edges. -/
structure Offering (p : Params) (ws : List CmdWord) (k : Nat) (s : State) : Prop where
  seen : s.resetSeen = true
  recovery : recovered p s = true
  onTime : OnTime p s
  drains : DrainsIn k s.inFlight
  onlyLastRd : OnlyLastIsRd (s.inFlight.map (·.word) ++ ws)

theorem offering_of_clean {p : Params} {ws : List CmdWord} {s : State} (hclean : s.clean = true)
    (hready : cmdReady p false s = true) (hws : OnlyLastIsRd ws) : Offering p ws 0 s := by
  obtain ⟨hseen, hq, hw⟩ := clean_iff.mp hclean
  have hrecovered : recovered p s = true := by
    rw [cmdReady, Bool.not_false, Bool.true_and, Bool.and_eq_true] at hready
    exact hready.1
  exact ⟨hseen, hrecovered, onTime_of_empty hq hw p, hq ▸ drainsIn_nil 0, by rw [hq]; exact hws⟩

/-- The words that the host still has to send after this edge. -/
def restWords (p : Params) (ws : List CmdWord) (s : State) : List CmdWord :=
  if accepts p (offerFirst ws) s then ws.tail else ws

theorem offerFirst_pins (ws : List CmdWord) : (offerFirst ws).rst = false ∧ (offerFirst ws).resReady = true := by
  cases ws with
  | nil => exact ⟨rfl, rfl⟩
  | cons w ws => exact ⟨rfl, rfl⟩

/-- The word accepted at an edge is the next of those to be sent. -/
theorem newWords_append_restWords (p : Params) (ws : List CmdWord) (s : State) :
    newWords p (offerFirst ws) s ++ restWords p ws s = ws := by
  cases haccepts : accepts p (offerFirst ws) s with
  | false => rw [newWords_of_not_accepts haccepts, restWords, if_neg (by simp [haccepts]), List.nil_append]
  | true =>
    rw [newWords_of_accepts haccepts, restWords, if_pos haccepts]
    cases ws with
    | nil => simp [accepts, offerFirst, PortIn.pause] at haccepts
    | cons w ws => rfl

theorem newWords_add_restWords (p : Params) (ws : List CmdWord) (s : State) :
    (newWords p (offerFirst ws) s).length * p.cmdLatencyMax + (restWords p ws s).length * p.cmdLatencyMax =
      ws.length * p.cmdLatencyMax := by
  rw [← Nat.add_mul, ← List.length_append, newWords_append_restWords]

theorem drainsIn_append_entering {p : Params} {k : Nat} {q : List InFlight} (hq : DrainsIn k q) (ws : List CmdWord) :
    DrainsIn (k + ws.length * p.cmdLatencyMax) (q ++ ws.map (entering p)) := by
  obtain ⟨hlength, hleft⟩ := hq
  have hone : ws.length ≤ ws.length * p.cmdLatencyMax := Nat.le_mul_of_pos_right _ (Nat.succ_pos _)
  refine ⟨by rw [List.length_append, List.length_map]; omega, fun c hc => ?_⟩
  rcases List.mem_append.mp hc with hold | hnew
  · exact (hleft c hold).trans_le (Nat.le_add_right _ _)
  · obtain ⟨w, hw, rfl⟩ := List.mem_map.mp hnew
    calc p.cmdLatencyMaxMinusOne < p.cmdLatencyMax := Nat.lt_succ_self _
      _ ≤ ws.length * p.cmdLatencyMax := Nat.le_mul_of_pos_left _ (List.length_pos_of_mem hw)
      _ ≤ k + ws.length * p.cmdLatencyMax := Nat.le_add_left _ _

theorem map_word_map_entering (p : Params) (ws : List CmdWord) : (ws.map (entering p)).map (·.word) = ws := by
  rw [List.map_map]
  exact List.map_id ws

/-- An edge takes one from the edges to drain, and adds `CMD_LATENCY_MAX` for the word it accepts. -/
theorem Offering.after_edge {p : Params} {ws : List CmdWord} {k : Nat} {s t : State} (hs : Offering p ws k s)
    (h : edge p (offerFirst ws) s = .next t) :
    Offering p (restWords p ws s) (k - 1 + (newWords p (offerFirst ws) s).length * p.cmdLatencyMax) t ∧
    t.accepted = s.accepted ++ newWords p (offerFirst ws) s := by
  obtain ⟨hrst, hready⟩ := offerFirst_pins ws
  have ⟨⟨_, horder, _⟩, _⟩ := hs.onTime
  obtain ⟨q, hleaves, ht, haccepted⟩ := edge_of_taking hrst hready hs.seen hs.onTime.1 h
  refine ⟨⟨edge_resetSeen hs.seen h, edge_recovered hrst hs.recovery h,
    edgeKeepsCommandsOnTime p _ s t (.inr hready) hs.onTime h, ?_, ?_⟩, haccepted⟩
  · rw [ht]
    exact drainsIn_append_entering (hleaves.drainsIn horder hs.drains) _
  · rw [ht, List.map_append, map_word_map_entering, List.append_assoc, newWords_append_restWords]
    exact hs.onlyLastRd.sublist (hleaves.words_suffix.sublist.append_right ws)

/-- While the stage keeps the oldest command the pipeline is not empty. -/
theorem edge_inFlight_ne_nil_of_held {p : Params} {pin : PortIn} {s t : State} {c : InFlight} {rest : List InFlight}
    (hrst : pin.rst = false) (hseen : s.resetSeen = true) (hq : s.inFlight = c :: rest)
    (hhold : stageHolds p c s = true) (h : edge p pin s = .next t) : t.inFlight ≠ [] := by
  obtain ⟨-, hflight, -, -, hedge, -⟩ := takeResult_frame pin s
  obtain ⟨u, hexec, ht, -⟩ := edge_newWords hrst hseen h
  have hwaits : (stageHolds p c (takeResult pin s) || stalls p (decode c.word) (takeResult pin s)) = true := by
    rw [stageHolds_congr hedge, hhold, Bool.true_or]
  obtain rfl := Host.Outcome.next.inj ((executeOldest_of_waits (hflight.trans hq) hwaits).symm.trans hexec)
  rw [ht]
  exact List.append_ne_nil_of_left_ne_nil (List.cons_ne_nil _ _) _

/-- The pipeline is not empty after an edge that leaves the host words to send: the edge accepts a word, or it refuses it
because the stage keeps the oldest command, which is no `RD`. -/
theorem Offering.inFlight_ne_nil {p : Params} {ws : List CmdWord} {k : Nat} {s t : State} (hs : Offering p ws k s)
    (h : edge p (offerFirst ws) s = .next t) (hrest : restWords p ws s ≠ []) : t.inFlight ≠ [] := by
  obtain ⟨hrst, -⟩ := offerFirst_pins ws
  cases haccepts : accepts p (offerFirst ws) s with
  | true =>
    obtain ⟨u, -, ht, -⟩ := edge_newWords hrst hs.seen h
    rw [ht, newWords_of_accepts haccepts]
    exact List.append_ne_nil_of_right_ne_nil _ (List.cons_ne_nil _ _)
  | false =>
    rw [restWords, if_neg (by simp [haccepts])] at hrest
    obtain ⟨w, others, rfl⟩ := List.exists_cons_of_ne_nil hrest
    have hunready : cmdReady p false s = false := by simpa [accepts, offerFirst] using haccepts
    rcases (cmdReady_eq_false_iff p false s).mp hunready with hreset | hrecovery | hmany | ⟨-, c, rest, hcons, hwhy⟩
    · cases hreset
    · exact absurd hs.recovery (by rw [recovered_eq_false_iff.mpr hrecovery]; decide)
    · exact absurd hs.onTime.2 hmany.not_ge
    · have hfirst : decode c.word ≠ .rd := by
        have hpairs := hs.onlyLastRd
        rw [hcons, List.map_cons, List.cons_append, OnlyLastIsRd, List.pairwise_cons] at hpairs
        exact hpairs.1 w (List.mem_append_right _ List.mem_cons_self)
      have hhold := hwhy.resolve_right fun hstall => hfirst (stalls_iff.mp hstall).1
      exact edge_inFlight_ne_nil_of_held hrst hs.seen hcons hhold h

theorem offerAll_succ_of_edge {p : Params} {n : Nat} {ws : List CmdWord} {s t : State}
    (h : edge p (offerFirst ws) s = .next t) :
    offerAll p (n + 1) ws s = offerAll p n (restWords p ws s) t := by
  simp only [offerAll, h, restWords]

/-- With `CMD_LATENCY_MAX` edges for each word to send and those that the pipeline needs, all is accepted and
completed. -/
theorem Offering.completes {p : Params} {n k : Nat} {ws : List CmdWord} {s : State} (hs : Offering p ws k s)
    (hbusy : ws ≠ [] → 0 < k) (hn : k + ws.length * p.cmdLatencyMax ≤ n) :
    ∃ t, offerAll p n ws s = .next t ∧ t.inFlight = [] ∧ t.accepted = s.accepted ++ ws := by
  induction n generalizing k ws s with
  | zero =>
    have hk : k = 0 := by omega
    have hws : ws = [] := by
      by_contra hws
      exact (hbusy hws).ne' hk
    have hq : s.inFlight = [] := List.eq_nil_of_length_eq_zero (Nat.le_zero.mp (hk ▸ hs.drains.1))
    exact ⟨s, rfl, hq, by rw [hws, List.append_nil]⟩
  | succ n ih =>
    obtain ⟨u, hedge, -⟩ := edge_completes p (offerFirst ws) hs.seen
    obtain ⟨hu, haccepted⟩ := hs.after_edge hedge
    have hbusy' (hrest : restWords p ws s ≠ []) :=
      (List.length_pos_iff.mpr (hs.inFlight_ne_nil hedge hrest)).trans_le hu.drains.1
    have hn' : k - 1 + (newWords p (offerFirst ws) s).length * p.cmdLatencyMax +
        (restWords p ws s).length * p.cmdLatencyMax ≤ n := by
      rw [Nat.add_assoc, newWords_add_restWords]
      cases ws with
      | nil =>
        rw [List.length_nil, Nat.zero_mul, Nat.add_zero] at hn ⊢
        omega
      | cons w ws =>
        have hk := hbusy (List.cons_ne_nil w ws)
        omega
    obtain ⟨t, hoffer, hq, ht⟩ := ih hu hbusy' hn'
    refine ⟨t, (offerAll_succ_of_edge hedge).trans hoffer, hq, ?_⟩
    rw [ht, haccepted, List.append_assoc, newWords_append_restWords]

/-- An offering host is a list of pins without reset. -/
theorem offerAll_eq_edges {p : Params} {n : Nat} {ws : List CmdWord} {s t : State}
    (h : offerAll p n ws s = .next t) :
    ∃ pins, (∀ pin ∈ pins, pin.rst = false) ∧ edges p pins s = .next t := by
  induction n generalizing ws s with
  | zero => exact ⟨[], fun _ hpin => absurd hpin List.not_mem_nil, h⟩
  | succ n ih =>
    cases hedge : edge p (offerFirst ws) s with
    | next u =>
      rw [offerAll_succ_of_edge hedge] at h
      obtain ⟨pins, hrst, hedges⟩ := ih h
      exact ⟨offerFirst ws :: pins, List.forall_mem_cons.mpr ⟨(offerFirst_pins ws).1, hrst⟩,
        (edges_cons_of_edge hedge pins).trans hedges⟩
    | fault r => simp [offerAll, hedge] at h
    | refused r => simp [offerAll, hedge] at h

theorem foreseen_of_nothing_inFlight {s : State} (h : s.inFlight = []) :
    s.foreseen = (s.total, s.taken ++ s.resWaiting) := by
  rw [State.foreseen, h]
  exact runAfter_nil _

/-- Settles O57: after the first edge the words cost `CMD_LATENCY_MAX` edges each, the one just accepted included, and what
has then been computed is what was foreseen of a transaction. -/
theorem transactionCompletesInTime : Obligations.TransactionCompletesInTime := by
  unfold Obligations.TransactionCompletesInTime
  intro p text n s hclean hready hn
  have hstart := offering_of_clean hclean hready (onlyLastIsRd_transactionWords text)
  obtain ⟨u, hedge, -⟩ := edge_completes p (offerFirst (transactionWords text)) hstart.seen
  obtain ⟨hu, haccepted⟩ := hstart.after_edge hedge
  have hbusy (hrest : restWords p (transactionWords text) s ≠ []) :=
    (List.length_pos_iff.mpr (hstart.inFlight_ne_nil hedge hrest)).trans_le hu.drains.1
  obtain ⟨t, hoffer, hq, ht⟩ := hu.completes hbusy (n := n) <| by
    rwa [Nat.zero_sub, Nat.zero_add, newWords_add_restWords, transactionWords_length]
  have hrun := (offerAll_succ_of_edge hedge).trans hoffer
  have hall : t.accepted = s.accepted ++ transactionWords text := by
    rw [ht, haccepted, List.append_assoc, newWords_append_restWords]
  obtain ⟨pins, hrst, hedges⟩ := offerAll_eq_edges hrun
  obtain ⟨ws, hws, hforeseen⟩ := edges_foreseen hrst hedges
  obtain rfl : ws = transactionWords text := List.append_cancel_left (hws.symm.trans hall)
  rw [foreseen_of_nothing_inFlight hq, foreseen_of_clean hclean, commands_transactionWords, runAfter,
    run_transaction] at hforeseen
  obtain ⟨htotal, hresults⟩ := Prod.mk.inj hforeseen
  exact ⟨t, hrun, hq, hall, htotal, hresults⟩

end Sys2Proof.Machine
